-- ==== Sys2Proof/Word.lean ====
section
/-! DEFINITION. The word types of the block: a register is 32 bits wide (10_state.md R22), framebuffer
memory and pixel data are bytes (20_memory.md R40, 10_state.md R28). -/

namespace Sys2Proof

/-- A register of the window, a command word, or an address (R11, R22, R60). -/
abbrev Word := BitVec 32

/-- A byte of framebuffer memory or of the scanline (R28, R40). -/
abbrev Byte := BitVec 8

end Sys2Proof
end

