-- ==== Sys2Proof/Config.lean ====
section
/-! DEFINITION. What an implementation fixes (00_scope.md R7 to R13) and the free values of the model.
The parameters are plain data; the machine that `Sys2Proof.core` names takes them from the opaque
`Config.params`, so nothing can be proved about one choice of them. -/

namespace Sys2Proof

/-- `WORD_BITS`, the width of the writer's machine word: 16, 32 or 64 (R7). -/
inductive WordSize where
  | w16
  | w32
  | w64
  deriving DecidableEq, Repr, Inhabited

/-- `INTERLACE_EFFECT`, what the interlace flag does to rendering (R13): nothing (the reference, R111), or an
effect the spec does not give. DESIGN CHOICE, safe: notes/assumptions/10.md. -/
inductive InterlaceEffect where
  | ignored
  | unspecified
  deriving DecidableEq, Repr, Inhabited

/-- The implementation parameters, so coded that every value is legal.
`STRIDE_BYTES` is the least legal number of words a row needs plus `extraRowWords` (R8; notes/assumptions/4.md).
Bit `16*c + 4*rr + kk` of `lut` is `LUT[c][rr][kk]` (R9; notes/assumptions/16.md).
`regPage` is `REG_BASE` without its low nine bits, which are 0 (R11).
`rejected` lists the address ranges, each a first address and a length, whose writes the memory bus rejects (R151;
notes/assumptions/12.md). -/
structure Params where
  wordSize : WordSize
  extraRowWords : Nat
  lut : BitVec 64
  fillBit : Bool
  regPage : BitVec 23
  interlaceEffect : InterlaceEffect
  rejected : List (Nat × Nat)
  deriving DecidableEq, Repr, Inhabited

/-- The parameters of the machine at hand: any (R7 to R13, R151). -/
opaque Config.params : Params

/-- FREE VALUE. What register SLW[i] holds, at a value of the counter, when the host has not written it since the
last RENDER_LINE or reset (R112; notes/assumptions/6.md). -/
opaque Config.staleSlw : (counter i : Nat) → Word

/-- FREE VALUE. What framebuffer memory holds at an address that nothing has written (R32; notes/assumptions/9.md). -/
opaque Config.initialByte : (address : Nat) → Byte

/-- What RENDER_LINE has to draw from: the counter of the free values, the code of the mode, the line, and the gray
levels of the scanline (R100). -/
structure LineInput where
  counter : Nat
  mode : BitVec 2
  line : BitVec 8
  levels : List (BitVec 2)
  deriving DecidableEq, Repr

/-- FREE VALUE. Under an unspecified interlace effect, the first row and the number of rows a RENDER_LINE writes.
DESIGN CHOICE, safe: it depends on the line's input (R13; notes/assumptions/10.md). -/
opaque Config.interlaceRows : LineInput → Nat × Nat

/-- FREE VALUE. Under an unspecified interlace effect, the bit a RENDER_LINE writes at a row and a column.
DESIGN CHOICE, safe: it depends on the line's input (R13; notes/assumptions/10.md). -/
opaque Config.interlaceBit : (input : LineInput) → (row column : Nat) → Bool

/-- FREE VALUE. Whether the n-th word that another agent reads during a command is the new one
(20_memory.md R51; notes/assumptions/17.md). -/
opaque Config.raceSeesNew : (counter n : Nat) → Bool

end Sys2Proof
end

