-- ==== Sys2Proof/Syntax.lean ====
section
/-! DEFINITION. The host's accesses to the register window, and the instructions: one constructor of `Instr` for each
row of spec/opcode_table.json (30_encoding.md R60, R67). -/

namespace Sys2Proof

/-- The scaling modes, in the order of their codes (10_state.md R24). -/
inductive Mode where
  | natural
  | fitted
  | doubled
  | sliced
  deriving DecidableEq, Repr

/-- The direction of an access, with the data of a write. -/
inductive BusOp where
  | read
  | write (v : Word)
  deriving DecidableEq, Repr

/-- The width of an access. Only `word`, 32 bits, is defined (20_memory.md R49). -/
inductive AccessSize where
  | byte
  | half
  | word
  | double
  deriving DecidableEq, Repr

/-- A host access to the register window at `offset = address - REG_BASE` (R67). A burst is an access of more than
one beat (60_exceptions.md R151). -/
structure BusAccess where
  op : BusOp
  offset : BitVec 9
  size : AccessSize
  burst : Bool
  deriving DecidableEq, Repr

/-- The instructions. The commands carry their reserved field, because a nonzero one is checked by the command's own
rule (R60, R66). -/
inductive Instr where
  /-- RENDER_LINE: `w[27:8]` and LINE = `w[7:0]` (R100). -/
  | renderLine (rsv : BitVec 20) (line : BitVec 8)
  /-- SET_MODE: `w[27:2]` and MODE = `w[1:0]` (R120). -/
  | setMode (rsv : BitVec 26) (mode : Mode)
  /-- SET_INTERLACE: `w[27:1]` and EN = `w[0]` (R121). -/
  | setInterlace (rsv : BitVec 27) (en : BitVec 1)
  /-- END_FRAME: `w[27:0]` (R122). -/
  | endFrame (rsv : BitVec 28)
  /-- WR_CMD: a write of `w` to CMD (R66). A word of one of the four commands decodes to that command. -/
  | wrCmd (w : Word)
  /-- RD_CMD: a read of CMD (R128). -/
  | rdCmd
  /-- RD_STATUS (R125). -/
  | rdStatus
  /-- RD_RESULT (R126). -/
  | rdResult
  /-- WR_FB_BASE (R123). -/
  | wrFbBase (v : Word)
  /-- RD_FB_BASE (R123). -/
  | rdFbBase
  /-- RD_ERR_CMD (R127). -/
  | rdErrCmd
  /-- WR_SLW, the table's row for SLW[i], i = 0..31 (R124). -/
  | wrSlwLow (i : BitVec 5) (v : Word)
  /-- WR_SLW, the table's row for SLW[32 + i], i = 0..7 (R124). -/
  | wrSlwHigh (i : BitVec 3) (v : Word)
  /-- WR_RO, the table's row for STATUS (R128). -/
  | wrRoStatus (v : Word)
  /-- WR_RO, the table's row for RESULT (R128). -/
  | wrRoResult (v : Word)
  /-- WR_RO, the table's row for ERR_CMD (R128). -/
  | wrRoErrCmd (v : Word)
  /-- RD_WO, the table's row for SLW[i], i = 0..31 (R128). -/
  | rdWoLow (i : BitVec 5)
  /-- RD_WO, the table's row for SLW[32 + i], i = 0..7 (R128). -/
  | rdWoHigh (i : BitVec 3)
  /-- RESERVED: a read or a write of a reserved offset (R128). -/
  | reserved (op : BusOp) (offset : BitVec 9)
  deriving DecidableEq, Repr

end Sys2Proof
end

