-- ==== Sys2Proof/WellFormed.lean ====
section
/-! DEFINITION. Which terms of `Instr` an access of the register window can stand for. -/

namespace Sys2Proof

/-- A command word whose OP is reserved: 0x0 and 0x5..0xF (30_encoding.md R62, R63). -/
def reservedOp (w : Word) : Bool :=
  let op := w.extractLsb' 28 4
  op == 0 || 5 ≤ op.toNat

/-- The reserved offsets 0x014..0x0FC and 0x1A0..0x1FC, each a multiple of 4 (10_state.md R22, 20_memory.md R49). -/
def reservedOffset (offset : BitVec 9) : Bool :=
  let o := offset.toNat
  o % 4 == 0 && ((0x014 ≤ o && o ≤ 0x0FC) || (0x1A0 ≤ o && o ≤ 0x1FC))

/-- The well-formed instructions. `wrCmd` holds the words that are none of the four commands, since a word of a
command is that command's own constructor; `reserved` holds a reserved offset. Every other term is well formed. -/
def Instr.wellFormed : Instr → Bool
  | .renderLine _ _ => true
  | .setMode _ _ => true
  | .setInterlace _ _ => true
  | .endFrame _ => true
  | .wrCmd w => reservedOp w
  | .rdCmd => true
  | .rdStatus => true
  | .rdResult => true
  | .wrFbBase _ => true
  | .rdFbBase => true
  | .rdErrCmd => true
  | .wrSlwLow _ _ => true
  | .wrSlwHigh _ _ => true
  | .wrRoStatus _ => true
  | .wrRoResult _ => true
  | .wrRoErrCmd _ => true
  | .rdWoLow _ => true
  | .rdWoHigh _ => true
  | .reserved _ offset => reservedOffset offset

end Sys2Proof
end

