-- ==== Sys2Proof/Decode.lean ====
section
/-! DEFINITION. Decoding a host access to the register window into an instruction, by the rows of
spec/opcode_table.json (30_encoding.md R60 to R67), and encoding an instruction as the access it stands for. -/

namespace Sys2Proof

/-- Why an access is no instruction: accesses the spec gives no behaviour (60_exceptions.md R151, 20_memory.md R49). -/
inductive DecodeError where
  | subWord
  | wide
  | misaligned
  | burst
  deriving DecidableEq, Repr

/-! ### The command word (CMD32 rows) -/

/-- The mode of a 2-bit code (R61). -/
def Mode.ofBits (b : BitVec 2) : Mode :=
  if b = 0 then .natural else if b = 1 then .fitted else if b = 2 then .doubled else .sliced

/-- The 2-bit code of a mode (R61, 10_state.md R24). -/
def Mode.toBits : Mode → BitVec 2
  | .natural => 0
  | .fitted => 1
  | .doubled => 2
  | .sliced => 3

/-- The command a word written to CMD runs, chosen by OP alone (R60, R66). A word of a reserved OP is `wrCmd`. -/
def decodeCommand (w : Word) : Instr :=
  let op := w.extractLsb' 28 4
  if op = 1 then .renderLine (w.extractLsb' 8 20) (w.extractLsb' 0 8)
  else if op = 2 then .setMode (w.extractLsb' 2 26) (Mode.ofBits (w.extractLsb' 0 2))
  else if op = 3 then .setInterlace (w.extractLsb' 1 27) (w.extractLsb' 0 1)
  else if op = 4 then .endFrame (w.extractLsb' 0 28)
  else .wrCmd w

/-- The word of RENDER_LINE (R60). -/
def renderLineWord (rsv : BitVec 20) (line : BitVec 8) : Word := 0x1#4 ++ rsv ++ line

/-- The word of SET_MODE (R60). -/
def setModeWord (rsv : BitVec 26) (mode : Mode) : Word := 0x2#4 ++ rsv ++ mode.toBits

/-- The word of SET_INTERLACE (R60). -/
def setInterlaceWord (rsv : BitVec 27) (en : BitVec 1) : Word := 0x3#4 ++ rsv ++ en

/-- The word of END_FRAME (R60). -/
def endFrameWord (rsv : BitVec 28) : Word := 0x4#4 ++ rsv

/-! ### The key of an access (HOSTBUS rows) -/

/-- A HOSTBUS row of the table: `pattern` is its match and `mask` its mask, over the 10-bit key (R67). -/
structure Row where
  pattern : BitVec 10
  mask : BitVec 10
  deriving DecidableEq, Repr

/-- The row matches the key. -/
def Row.hits (r : Row) (key : BitVec 10) : Bool := key &&& r.mask == r.pattern

def rowWrCmd : Row := ⟨0x200, 0x3FF⟩
def rowRdCmd : Row := ⟨0x000, 0x3FF⟩
def rowRdStatus : Row := ⟨0x004, 0x3FF⟩
def rowRdResult : Row := ⟨0x008, 0x3FF⟩
def rowWrFbBase : Row := ⟨0x20C, 0x3FF⟩
def rowRdFbBase : Row := ⟨0x00C, 0x3FF⟩
def rowRdErrCmd : Row := ⟨0x010, 0x3FF⟩
def rowWrSlwLow : Row := ⟨0x300, 0x383⟩
def rowWrSlwHigh : Row := ⟨0x380, 0x3E3⟩
def rowWrRoStatus : Row := ⟨0x204, 0x3FF⟩
def rowWrRoResult : Row := ⟨0x208, 0x3FF⟩
def rowWrRoErrCmd : Row := ⟨0x210, 0x3FF⟩
def rowRdWoLow : Row := ⟨0x100, 0x383⟩
def rowRdWoHigh : Row := ⟨0x180, 0x3E3⟩

/-- The HOSTBUS rows of the table, in its order, but for RESERVED, which matches whatever key no other row
matches (R67). -/
def hostbusRows : List Row :=
  [rowWrCmd, rowRdCmd, rowRdStatus, rowRdResult, rowWrFbBase, rowRdFbBase, rowRdErrCmd] ++
  [rowWrSlwLow, rowWrSlwHigh, rowWrRoStatus, rowWrRoResult, rowWrRoErrCmd, rowRdWoLow, rowRdWoHigh]

/-- An aligned write, by its key (R67). -/
def decodeWrite (offset : BitVec 9) (v : Word) : Instr :=
  let key : BitVec 10 := 1#1 ++ offset
  if rowWrCmd.hits key then decodeCommand v
  else if rowWrFbBase.hits key then .wrFbBase v
  else if rowWrSlwLow.hits key then .wrSlwLow (offset.extractLsb' 2 5) v
  else if rowWrSlwHigh.hits key then .wrSlwHigh (offset.extractLsb' 2 3) v
  else if rowWrRoStatus.hits key then .wrRoStatus v
  else if rowWrRoResult.hits key then .wrRoResult v
  else if rowWrRoErrCmd.hits key then .wrRoErrCmd v
  else .reserved (.write v) offset

/-- An aligned read, by its key (R67). -/
def decodeRead (offset : BitVec 9) : Instr :=
  let key : BitVec 10 := 0#1 ++ offset
  if rowRdCmd.hits key then .rdCmd
  else if rowRdStatus.hits key then .rdStatus
  else if rowRdResult.hits key then .rdResult
  else if rowRdFbBase.hits key then .rdFbBase
  else if rowRdErrCmd.hits key then .rdErrCmd
  else if rowRdWoLow.hits key then .rdWoLow (offset.extractLsb' 2 5)
  else if rowRdWoHigh.hits key then .rdWoHigh (offset.extractLsb' 2 3)
  else .reserved .read offset

/-- The instruction an access runs. Only an aligned 32-bit access that is no burst has one (R49, R67, R151). -/
def decode (a : BusAccess) : Except DecodeError Instr :=
  if a.burst then .error .burst
  else match a.size with
    | .byte => .error .subWord
    | .half => .error .subWord
    | .double => .error .wide
    | .word =>
      if a.offset.extractLsb' 0 2 ≠ 0 then .error .misaligned
      else match a.op with
        | .read => .ok (decodeRead a.offset)
        | .write v => .ok (decodeWrite a.offset v)

/-! ### Encoding -/

/-- The aligned 32-bit read of an offset. -/
def readAccess (offset : BitVec 9) : BusAccess := ⟨.read, offset, .word, false⟩

/-- The aligned 32-bit write of a value to an offset. -/
def writeAccess (offset : BitVec 9) (v : Word) : BusAccess := ⟨.write v, offset, .word, false⟩

/-- The access an instruction stands for (R60, R67). -/
def encode : Instr → BusAccess
  | .renderLine rsv line => writeAccess 0x000 (renderLineWord rsv line)
  | .setMode rsv mode => writeAccess 0x000 (setModeWord rsv mode)
  | .setInterlace rsv en => writeAccess 0x000 (setInterlaceWord rsv en)
  | .endFrame rsv => writeAccess 0x000 (endFrameWord rsv)
  | .wrCmd w => writeAccess 0x000 w
  | .rdCmd => readAccess 0x000
  | .rdStatus => readAccess 0x004
  | .rdResult => readAccess 0x008
  | .wrFbBase v => writeAccess 0x00C v
  | .rdFbBase => readAccess 0x00C
  | .rdErrCmd => readAccess 0x010
  | .wrSlwLow i v => writeAccess (2#2 ++ i ++ 0#2) v
  | .wrSlwHigh i v => writeAccess (12#4 ++ i ++ 0#2) v
  | .wrRoStatus v => writeAccess 0x004 v
  | .wrRoResult v => writeAccess 0x008 v
  | .wrRoErrCmd v => writeAccess 0x010 v
  | .rdWoLow i => readAccess (2#2 ++ i ++ 0#2)
  | .rdWoHigh i => readAccess (12#4 ++ i ++ 0#2)
  | .reserved op offset => ⟨op, offset, .word, false⟩

/-! ### The table's numbering of bits -/

/-- The access whose bits are `w`. A CMD32 row is the 32-bit word written to CMD. A HOSTBUS row is its 10-bit key in
bits 9..0 (bits 15..10 are 0) and then the 32-bit data of a write in bits 47..16; a read carries no data. DESIGN
CHOICE: notes/assumptions/19.md. -/
def tableAccess (nbits w : Nat) : Option BusAccess :=
  if nbits = 32 then
    if w < 2 ^ 32 then some (writeAccess 0x000 (BitVec.ofNat 32 w)) else none
  else
    let key := w % 2 ^ 16
    let data := w / 2 ^ 16
    if key < 2 ^ 9 then
      if data = 0 then some (readAccess (BitVec.ofNat 9 key)) else none
    else if key < 2 ^ 10 then
      if data < 2 ^ 32 then some (writeAccess (BitVec.ofNat 9 key) (BitVec.ofNat 32 data)) else none
    else none

/-- The instruction the decoder reads from bits numbered as the table numbers them. -/
def decodeTableWord (nbits w : Nat) : Option Instr :=
  match tableAccess nbits w with
  | none => none
  | some a =>
    match decode a with
    | .ok i => some i
    | .error _ => none

end Sys2Proof
end

