-- ==== Sys2Proof/Machine/State.lean ====
section
/-! DEFINITION. The state of the machine, as plain data: every piece of state 10_state.md gives the block, the
framebuffer memory it writes, the implementation parameters, and what the host is about to do. INVENTORY.md lists each
field with its rule and reset value. -/

namespace Sys2Proof.Machine

/-- `STATUS.ERR_CAUSE` (60_exceptions.md R141). The codes 4..7 are never produced, so there is no constructor. -/
inductive Cause where
  | none
  | rsvOpcode
  | rsvField
  | noFb
  deriving DecidableEq, Repr

/-- Framebuffer memory: address and byte, addresses strictly rising. An address that is not listed holds no value the
model knows (10_state.md R32; notes/assumptions/9.md). -/
abbrev Memory := List Host.Cell

/-- The canonical form of memory. No entry can equal what an unlisted address reads as, since that is no value. -/
abbrev Memory.wf (m : Memory) : Prop := m.Pairwise (fun c d => c.1 < d.1) ∧ ∀ c ∈ m, c.1 < 2 ^ 32

/-- The Bit-Packed Row Writer (10_state.md R30). `acc` holds the WORD_BITS bits of ACC in its low bits
(notes/assumptions/15.md). -/
structure Writer where
  acc : BitVec 64
  nb : Nat
  wptr : BitVec 32
  deriving DecidableEq, Repr

/-- What the host, or the platform around the block, does next. One of these is one step (10_state.md R20;
notes/assumptions/1.md). -/
inductive HostEvent where
  /-- An access to the register window at an offset (R67). -/
  | access (a : BusAccess)
  /-- An access that begins at a bus address, with `furtherBeats` beats of its size after the first. It is an access to
  the window if a byte of it lies there (R11, R22; notes/assumptions/24.md). -/
  | accessAt (address : BitVec 32) (op : BusOp) (size : AccessSize) (furtherBeats : Nat)
  /-- A window access while which another agent reads the framebuffer words at the addresses (R51, R166). -/
  | raced (a : BusAccess) (watched : List (BitVec 32))
  /-- The host writes a byte of framebuffer memory (R32, R170). -/
  | storeByte (address : BitVec 32) (b : Byte)
  /-- The host reads a byte of framebuffer memory (R42, R170). -/
  | loadByte (address : BitVec 32)
  /-- The reset input is asserted (70_reset_and_hazards.md R160). -/
  | reset
  deriving DecidableEq, Repr

/-- The faults that stop the machine: none. The block never traps and never stops (60_exceptions.md R140): an error it
detects is recorded in STATUS and ERR_CMD, and a read of a stale pixel in `scanlineFault`, and each is a next state.
Nothing raises a fault. -/
inductive Fault where
  deriving DecidableEq, Repr

/-- Why a step has no meaning in the model. -/
inductive Refusal where
  /-- Raised by an arm of `exec` whose instruction has no meaning yet. Safe. No arm raises it. -/
  | notModelled (mnemonic : String)
  /-- Raised by the step on an access narrower than 32 bits (R49, R151). Safe. -/
  | subWordAccess
  /-- Raised by the step on an access wider than 32 bits (R49; notes/assumptions/13.md). Safe. -/
  | wideAccess
  /-- Raised by the step on an access whose offset is no multiple of 4 (R49, R151). Safe. -/
  | misalignedAccess
  /-- Raised by the step on a burst access (R151). Safe. -/
  | burstAccess
  /-- Raised by RENDER_LINE and SET_MODE when they would write a framebuffer region that wraps past 2^32
  (R46, R151). Safe. -/
  | framebufferWraps
  /-- Raised by RENDER_LINE and SET_MODE when they would write a row the memory bus rejects (R151). Safe. -/
  | busRejectsWrite
  deriving DecidableEq, Repr

/-- The state of the machine. The fields of STATUS and RESULT are kept apart; `statusWord` and `resultWord` give the
registers. -/
structure State where
  /-- The implementation parameters; no step changes them (R7 to R13, R29). -/
  params : Params
  /-- `STATUS.MODE` (R24). -/
  mode : Mode
  /-- `STATUS.INTERLACE` (R24). -/
  interlace : Bool
  /-- `STATUS.FULL_REDRAW_PENDING` (R24). -/
  fullRedrawPending : Bool
  /-- `STATUS.FB_VALID` (R24). -/
  fbValid : Bool
  /-- `STATUS.ERR` (R24). -/
  err : Bool
  /-- `STATUS.ERR_CAUSE` (R24, R141). -/
  errCause : Cause
  /-- `RESULT.FIRST_ROW` (R25). -/
  firstRow : BitVec 8
  /-- `RESULT.ROW_COUNT` (R25). -/
  rowCount : BitVec 8
  /-- `FB_BASE` (R26). -/
  fbBase : BitVec 32
  /-- `ERR_CMD` (R27). -/
  errCmd : Word
  /-- `SLW[0..39]` (R28). -/
  slw : Vector Word 40
  /-- Which SLW registers the host has written since the last RENDER_LINE or reset (R112, R164). -/
  slwFresh : Vector Bool 40
  /-- ACC, NB and WPTR (R30). -/
  writer : Writer
  /-- Framebuffer memory (R32). -/
  mem : Memory
  /-- MODEL'S OWN: what the host does next, in program order (notes/assumptions/1.md). -/
  host : List HostEvent
  /-- MODEL'S OWN: the word the host's last read returned (notes/assumptions/8.md). -/
  readData : Word
  /-- MODEL'S OWN: the words another agent read during the last raced access (notes/assumptions/17.md). -/
  raceReads : List (List Byte)
  /-- MODEL'S OWN: a RENDER_LINE has drawn from a pixel the host had not written, the fault of R164: an error state that
  no later step leaves (93_implementation_defined.md; notes/assumptions/6.md). -/
  scanlineFault : Bool
  /-- MODEL'S OWN: the counter at which free values are taken (notes/assumptions/7.md). -/
  freeCtr : Nat
  deriving DecidableEq, Repr

/-- The machine right after reset, for given parameters (R160). SLW holds 0 by DESIGN CHOICE (notes/assumptions/5.md). -/
def State.resetWith (p : Params) : State where
  params := p
  mode := .natural
  interlace := false
  fullRedrawPending := true
  fbValid := false
  err := false
  errCause := .none
  firstRow := 0
  rowCount := 0
  fbBase := 0
  errCmd := 0
  slw := Vector.replicate 40 0
  slwFresh := Vector.replicate 40 false
  writer := ⟨0, 0, 0⟩
  mem := []
  host := []
  readData := 0
  raceReads := []
  scanlineFault := false
  freeCtr := 0

/-- The machine right after reset (R160), with parameters about which nothing is known. -/
def State.reset : State := State.resetWith Config.params

end Sys2Proof.Machine
end

