-- ==== Sys2Proof/Machine/Ops.lean ====
section
/-! DEFINITION. The named operations over the state: the geometry of the framebuffer, memory, the Bit-Packed Row Writer
(40_datapath.md R83 to R89), recording an error (60_exceptions.md R143), and what the host and the platform do between
commands. -/

namespace Sys2Proof.Machine

/-! ### Geometry (00_scope.md R6 to R11) -/

/-- `DST_W`, the columns of a destination row that show pixels (R6). -/
abbrev destWidth : Nat := 400

/-- `DST_H`, the destination rows (R6). -/
abbrev destRows : Nat := 240

/-- `WORD_BITS` (R7). -/
def wordBits (p : Params) : Nat :=
  match p.wordSize with
  | .w16 => 16
  | .w32 => 32
  | .w64 => 64

/-- `WORD_BYTES` (R7). -/
def wordBytes (p : Params) : Nat := wordBits p / 8

/-- The words of a row: the least number that holds 400 columns, and the parameter's extra words (R8, R89). -/
def rowWords (p : Params) : Nat :=
  (destWidth + wordBits p - 1) / wordBits p + p.extraRowWords

/-- `STRIDE_BYTES` (R8). -/
def strideBytes (p : Params) : Nat := rowWords p * wordBytes p

/-- `REG_BASE`, aligned to 0x200 (R11). -/
def regBase (p : Params) : BitVec 32 := p.regPage ++ 0#9

/-- The reference parameters of 95_test_vectors.md: 32-bit words, a stride of 52 bytes, FILL_BIT 0 and `LUT_ref`
(R7, R8, R10, R82), with no interlace effect (R13). The spec gives REG_BASE no reference value; it is 0 here. -/
def referenceParams : Params where
  wordSize := .w32
  extraRowWords := 0
  lut := 0x0000A5A5AFAFFFFF
  fillBit := false
  regPage := 0
  interlaceEffect := .ignored
  rejected := []

/-! ### Memory (20_memory.md R40 to R45) -/

/-- The byte memory holds at an address, if one has been written. -/
def Memory.read (m : Memory) (a : Nat) : Option Byte := m.lookup a

/-- Memory after the bytes `cells` are written, their addresses strictly rising (R51). -/
def Memory.store (m : Memory) : List Host.Cell → Memory
  | [] => m
  | c :: cs => m.takeWhile (fun d => d.1 < c.1) ++ c :: Memory.store (m.dropWhile (fun d => d.1 ≤ c.1)) cs

/-- The byte an agent reads at an address of framebuffer memory; a free byte where nothing has been written
(10_state.md R32; notes/assumptions/9.md). -/
def framebufferByte (s : State) (a : Nat) : Byte := (s.mem.read a).getD (Config.initialByte a)

/-- `MemWrite(addr, n, v)`, the byte-order normalizer: the bytes it writes, the most significant byte of the n-byte
value at the lowest address (R43). -/
def memWrite (addr : BitVec 32) (n : Nat) (v : BitVec 64) : List Host.Cell :=
  (List.range n).map fun i => ((addr + BitVec.ofNat 32 i).toNat, v.extractLsb' (8 * (n - i) - 8) 8)

/-- The address of the first byte of a destination row, in a region that does not wrap (R41). -/
def rowStart (s : State) (r : Nat) : Nat := s.fbBase.toNat + r * strideBytes s.params

/-- Destination pixel (r, k), if its byte has been written: bit `7 - (k mod 8)` of byte `k div 8` of the row (R42). -/
def framebufferPixel (s : State) (r k : Nat) : Option Bool :=
  (s.mem.read (rowStart s r + k / 8)).map fun b => b.getLsbD (7 - k % 8)

/-! ### The Bit-Packed Row Writer (R83 to R89) -/

/-- The bus address of a destination row (R83). -/
def rowAddress (s : State) (r : Nat) : BitVec 32 := s.fbBase + BitVec.ofNat 32 (r * strideBytes s.params)

/-- `BeginRow(r)` (R83). -/
def beginRow (s : State) (r : Nat) : Writer := ⟨0, 0, rowAddress s r⟩

/-- `Flush()`: the writer after it, and the bytes written (R85). -/
def flush (p : Params) (w : Writer) : Writer × List Host.Cell :=
  (⟨0, 0, w.wptr + BitVec.ofNat 32 (wordBytes p)⟩, memWrite w.wptr (wordBytes p) w.acc)

/-- `Emit(b)`: the writer after it, and the bytes written (R84). -/
def emit (p : Params) (b : Bool) (w : Writer) : Writer × List Host.Cell :=
  let acc := w.acc ||| ((BitVec.ofBool b).setWidth 64 <<< (wordBits p - 1 - w.nb))
  if w.nb + 1 = wordBits p then flush p ⟨acc, w.nb + 1, w.wptr⟩ else (⟨acc, w.nb + 1, w.wptr⟩, [])

/-- `Emit` of each bit in turn. -/
def emitBits (p : Params) : List Bool → Writer → Writer × List Host.Cell
  | [], w => (w, [])
  | b :: bs, w =>
    let e := emit p b w
    let f := emitBits p bs e.1
    (f.1, e.2 ++ f.2)

/-- `WriteRow(r, ...)`: every column of the row, padding included, where `bit k` is the bit of column k (R86). -/
def writeRow (s : State) (bit : Nat → Bool) (r : Nat) : Writer × List Host.Cell :=
  emitBits s.params ((List.range (8 * strideBytes s.params)).map bit) (beginRow s r)

/-- `WriteRow` of each row in turn, where `bit r k` is the bit of row r and column k; `w` is the writer where no row
is written. -/
def writeRows (s : State) (bit : Nat → Nat → Bool) : List Nat → Writer → Writer × List Host.Cell
  | [], w => (w, [])
  | r :: rs, _ =>
    let e := writeRow s (bit r) r
    let f := writeRows s bit rs e.1
    (f.1, e.2 ++ f.2)

/-- The state after a command has written the rows, which rise. The writes of a command take effect together, since
no host access falls among them (R47, R50; notes/assumptions/14.md). -/
def drawRows (s : State) (bit : Nat → Nat → Bool) (rows : List Nat) : State :=
  let o := writeRows s bit rows s.writer
  { s with writer := o.1, mem := s.mem.store o.2 }

/-! ### Where a command may write (R46, R151) -/

/-- The framebuffer region does not wrap past the top of the address space (R46). -/
def regionFits (s : State) : Bool := s.fbBase.toNat + destRows * strideBytes s.params ≤ 2 ^ 32

/-- The memory bus rejects a write to some byte of the row (R151). -/
def rowRejected (s : State) (r : Nat) : Bool :=
  let first := s.fbBase.toNat + r * strideBytes s.params
  s.params.rejected.any fun range =>
    0 < range.2 && first < range.1 + range.2 && range.1 < first + strideBytes s.params

/-- Why a command that writes the rows has no meaning, if it has none (R46, R151). A command that writes no row has
one. DESIGN CHOICE, safe: where the region wraps and the bus also rejects a row, the wrap is named, since R151 gives the
refusals no order (notes/assumptions/11.md). -/
def writeStop (s : State) (rows : List Nat) : Option Refusal :=
  if rows = [] then none
  else if !regionFits s then some .framebufferWraps
  else if rows.any (rowRejected s) then some .busRejectsWrite
  else none

/-! ### Errors, the fields of STATUS, the report and the scanline -/

/-- `raise CmdError(cause)` for the command word `w`: the first error is recorded, and nothing else changes (R143). -/
def raiseError (cause : Cause) (w : Word) (s : State) : State :=
  if s.err then s else { s with err := true, errCause := cause, errCmd := w }

/-- The scaling mode is selected (R120). -/
def selectMode (mode : Mode) (s : State) : State := { s with mode := mode }

/-- The interlace flag takes a value (R121). -/
def setInterlaceFlag (b : Bool) (s : State) : State := { s with interlace := b }

/-- FULL_REDRAW_PENDING takes a value (R120, R122). -/
def setRedrawPending (b : Bool) (s : State) : State := { s with fullRedrawPending := b }

/-- RESULT reports a span of rows (10_state.md R25). -/
def setReport (first count : Nat) (s : State) : State :=
  { s with firstRow := BitVec.ofNat 8 first, rowCount := BitVec.ofNat 8 count }

/-- The dirty-row report of the rows written (41_render.md R110). -/
def reportRows (rows : List Nat) (s : State) : State := setReport (rows.headD 0) rows.length s

/-- The scanline is unspecified until the host writes it again (R112): no SLW register is fresh, and the counter of the
free values moves on. -/
def consumeScanline (s : State) : State :=
  { s with slwFresh := Vector.replicate 40 false, freeCtr := s.freeCtr + 1 }

/-- The fault of a read of a stale pixel, if there is one, is recorded for good (R164; notes/assumptions/6.md). -/
def recordScanlineFault (stale : Bool) (s : State) : State := { s with scanlineFault := s.scanlineFault || stale }

/-! ### Register accesses -/

/-- A read returns a value to the host (30_encoding.md R67). -/
def returnWord (v : Word) (s : State) : State := { s with readData := v }

/-- A write to FB_BASE: the low bits are hard-wired 0, and FB_VALID is set (10_state.md R26, 42_control.md R123). -/
def writeFbBase (v : Word) (s : State) : State :=
  { s with fbBase := v &&& ~~~(BitVec.ofNat 32 (wordBytes s.params - 1)), fbValid := true }

/-- A write to SLW[i] (R124). -/
def writeSlw (i : Fin 40) (v : Word) (s : State) : State :=
  { s with slw := s.slw.set i v, slwFresh := s.slwFresh.set i true }

/-! ### What the host and the platform do between accesses -/

/-- The bytes of one beat of an access. -/
def accessBytes : AccessSize → Nat
  | .byte => 1
  | .half => 2
  | .word => 4
  | .double => 8

/-- The window offset at which an access begins, if it is one to the window: an access of `bytes` bytes at rising
addresses from `address`, some byte of which lies in the window (R11, R22). One that begins outside the window and
reaches into it begins at its address modulo 0x200, which is no offset of an aligned 32-bit access.
DESIGN CHOICE: notes/assumptions/24.md. -/
def windowOffset (p : Params) (address : BitVec 32) (bytes : Nat) : Option (BitVec 9) :=
  if address.extractLsb' 9 23 = p.regPage ∨ (regBase p - address).toNat < bytes then some (address.extractLsb' 0 9)
  else none

/-- The host's coming events are these. -/
def setHost (events : List HostEvent) (s : State) : State := { s with host := events }

/-- The host writes a byte of framebuffer memory (R32, R54). -/
def hostStore (address : BitVec 32) (b : Byte) (s : State) : State :=
  { s with mem := s.mem.store [(address.toNat, b)] }

/-- The host reads a byte of framebuffer memory (R42). -/
def hostLoad (address : BitVec 32) (s : State) : State :=
  returnWord ((framebufferByte s address.toNat).setWidth 32) s

/-- The reset input: every piece of block state takes its reset value, and framebuffer memory keeps its contents
(R160). The parameters, the host's own data, the record of a stale read and the counter of the free values are not the
block's; the record stays, since no later step leaves it, and the counter moves on, since SLW is unspecified again
(notes/assumptions/6.md, 18.md). -/
def blockReset (s : State) : State :=
  { State.resetWith s.params with
    mem := s.mem, host := s.host, readData := s.readData, raceReads := s.raceReads
    scanlineFault := s.scanlineFault, freeCtr := s.freeCtr + 1 }

/-- The bytes of the framebuffer word that holds an address. -/
def framebufferWord (s : State) (address : BitVec 32) : List Byte :=
  let first := address.toNat / wordBytes s.params * wordBytes s.params
  (List.range (wordBytes s.params)).map fun i => framebufferByte s (first + i)

/-- What another agent reads while an access takes the machine from `s` to `t`: each word is the old one or the new
one, freely (R51; notes/assumptions/17.md). -/
def recordRace (s t : State) (watched : List (BitVec 32)) : State :=
  { t with
    raceReads := watched.mapIdx fun n a =>
      if Config.raceSeesNew t.freeCtr n then framebufferWord t a else framebufferWord s a
    freeCtr := t.freeCtr + 1 }

end Sys2Proof.Machine
end

