-- ==== Sys2Proof/Machine/Operands.lean ====
section
/-! DEFINITION. The operands of RENDER_LINE: the pixel view of the scanline (10_state.md R28), the colour mask and the
dither lookup (40_datapath.md R80, R81), and the row and column maps of the four modes (41_render.md R101 to R109). -/

namespace Sys2Proof.Machine

/-! ### Pixels -/

/-- What SLW[i] holds; a free word if the host has not written it since the last RENDER_LINE or reset
(R112, R164; notes/assumptions/6.md). -/
def slWord (s : State) (i : Fin 40) : Word :=
  if s.slwFresh[i] then s.slw[i] else Config.staleSlw s.freeCtr i

/-- `SL[x]`, the pixel byte of source column x (R28). -/
def slByte (s : State) (x : Fin 160) : Byte :=
  (slWord s ⟨x.val / 4, by omega⟩).extractLsb' (8 * (x.val % 4)) 8

/-- `Mask(p)`, the gray level of a pixel byte (R80). -/
def mask (p : Byte) : BitVec 2 := (p &&& 0x3#8).setWidth 2

/-- `LUT[c][rr][kk]` (R9; notes/assumptions/16.md). -/
def lutBit (p : Params) (c : BitVec 2) (rr kk : Nat) : Bool := p.lut.getLsbD (16 * c.toNat + 4 * rr + kk)

/-- `Dither(c, r, k)`, at absolute destination coordinates (R81, R99). -/
def dither (p : Params) (c : BitVec 2) (r k : Nat) : Bool := lutBit p c (r % 4) (k % 4)

/-- The bit of row r and column k under a column map: a margin or padding column is FILL_BIT (R86). -/
def pixelBit (s : State) (srcmap : Nat → Option (Fin 160)) (r k : Nat) : Bool :=
  match (if k < destWidth then srcmap k else none) with
  | none => s.params.fillBit
  | some x => dither s.params (mask (slByte s x)) r k

/-! ### The modes -/

/-- `HM`, the horizontal margin (00_scope.md R12). -/
def horizontalMargin : Mode → Nat
  | .natural => 120
  | .fitted => 40
  | .doubled => 40
  | .sliced => 80

/-- `IW`, the image width (R12). -/
def imageWidth : Mode → Nat
  | .natural => 160
  | .fitted => 320
  | .doubled => 320
  | .sliced => 240

/-- `VOFF`, the vertical offset (R12). -/
def verticalOffset : Mode → Nat
  | .natural => 48
  | .fitted => 0
  | .doubled => 0
  | .sliced => 12

/-- The Natural row map (R101). -/
def naturalRows (l : Nat) : List Nat := [verticalOffset .natural + l].filter (· < destRows)

/-- The Fitted row map: a candidate d is dropped if d mod 6 = 5, and goes to row d - d div 6 otherwise (R103). -/
def fittedRows (l : Nat) : List Nat :=
  (([2 * l, 2 * l + 1].filter (· % 6 ≠ 5)).map fun d => d - d / 6).filter (· < destRows)

/-- The Doubled row map: only lines 12..131 take part (R105). -/
def doubledRows (l : Nat) : List Nat :=
  if 12 ≤ l ∧ l ≤ 131 then [2 * (l - 12), 2 * (l - 12) + 1] else []

/-- The Sliced row map (R107). -/
def slicedRows (l : Nat) : List Nat := [verticalOffset .sliced + (3 * l) / 2].filter (· < destRows)

/-- `RowMap(MODE, L)`: the destination rows a line writes, rising (R100). -/
def rowMap : Mode → Nat → List Nat
  | .natural, l => naturalRows l
  | .fitted, l => fittedRows l
  | .doubled, l => doubledRows l
  | .sliced, l => slicedRows l

/-- The image column of a destination column, if it is in the image span (R16). -/
def imageColumn (m : Mode) (k : Nat) : Option (Fin (imageWidth m)) :=
  if h : horizontalMargin m ≤ k ∧ k < horizontalMargin m + imageWidth m then
    some ⟨k - horizontalMargin m, by omega⟩
  else none

/-- The source pixel of an image column: 1:1 in Natural (R102), 2:1 in Fitted and Doubled (R104, R106), 3:2 in Sliced
(R108). -/
def sourcePixel : (m : Mode) → Fin (imageWidth m) → Fin 160
  | .natural, j => ⟨j.val, j.isLt⟩
  | .fitted, j => ⟨j.val / 2, by have := j.isLt; simp only [imageWidth] at this; omega⟩
  | .doubled, j => ⟨j.val / 2, by have := j.isLt; simp only [imageWidth] at this; omega⟩
  | .sliced, j => ⟨(2 * j.val + 1) / 3, by have := j.isLt; simp only [imageWidth] at this; omega⟩

/-- `ColMap(MODE)`: the source pixel a destination column shows, or none in the margin (R102, R104, R106, R108). -/
def colMap (m : Mode) (k : Nat) : Option (Fin 160) := (imageColumn m k).map (sourcePixel m)

/-! ### What RENDER_LINE writes -/

/-- All 40 SLW registers have been written since the last RENDER_LINE or reset (R164). -/
def scanlineLoaded (s : State) : Bool := s.slwFresh.all (fun b => b)

/-- A command that draws the rows reads a pixel the host has not written since the last RENDER_LINE or reset. Every row
shows every pixel, so a row reads all 40 registers, and a command that draws no row reads none (R86, R164;
notes/assumptions/6.md). -/
def readsStale (s : State) (rows : List Nat) : Bool := !rows.isEmpty && !scanlineLoaded s

/-- The gray levels of the scanline (R80). -/
def grayLevels (s : State) : List (BitVec 2) := (List.finRange 160).map fun x => mask (slByte s x)

/-- What RENDER_LINE has to draw a line from (R100). -/
def lineInput (s : State) (line : BitVec 8) : LineInput := ⟨s.freeCtr, s.mode.toBits, line, grayLevels s⟩

/-- The interlace flag is set and its effect is one the spec does not give (R13; notes/assumptions/10.md). -/
def interlaceActive (s : State) : Bool := s.interlace && s.params.interlaceEffect == .unspecified

/-- The rows an unspecified interlace effect writes for a line: at most two, contiguous, each below 240 (R25, R41), and
free within that. DESIGN CHOICE, safe: notes/assumptions/10.md. -/
def interlacedRows (s : State) (line : BitVec 8) : List Nat :=
  let f := Config.interlaceRows (lineInput s line)
  (List.range' f.1 (f.2 % 3)).filter (· < destRows)

/-- The rows RENDER_LINE writes for a line (R100, R111). -/
def renderRows (s : State) (line : BitVec 8) : List Nat :=
  if interlaceActive s then interlacedRows s line else rowMap s.mode line.toNat

/-- The bit RENDER_LINE writes for a line at row r and column k (R86, R100, R111). -/
def renderBit (s : State) (line : BitVec 8) (r k : Nat) : Bool :=
  if interlaceActive s then Config.interlaceBit (lineInput s line) r k else pixelBit s (colMap s.mode) r k

/-- The bit ClearScreen writes at row r and column k (R88). -/
def clearBit (s : State) (r k : Nat) : Bool := pixelBit s (fun _ => none) r k

end Sys2Proof.Machine
end

