-- ==== Sys2Proof/Machine/Flags.lean ====
section
/-! DEFINITION. The layouts of STATUS and RESULT (10_state.md R24, R25) and the error causes (60_exceptions.md R141). -/

namespace Sys2Proof.Machine

/-- The code of a cause (R141). -/
def causeCode : Cause → BitVec 3
  | .none => 0
  | .rsvOpcode => 1
  | .rsvField => 2
  | .noFb => 3

/-- `STATUS` (R24). -/
def statusWord (s : State) : Word :=
  0#20 ++ causeCode s.errCause ++ BitVec.ofBool s.err ++ 0#3 ++ BitVec.ofBool s.fbValid ++
    BitVec.ofBool s.fullRedrawPending ++ BitVec.ofBool s.interlace ++ s.mode.toBits

/-- `RESULT` (R25). -/
def resultWord (s : State) : Word := 0#16 ++ s.rowCount ++ s.firstRow

end Sys2Proof.Machine
end

