-- ==== Sys2Proof/Machine/Render.lean ====
section
/-! DEFINITION. The commands that write the framebuffer: RENDER_LINE (41_render.md R100) and SET_MODE
(42_control.md R120). -/

namespace Sys2Proof.Machine

/-- RENDER_LINE (R100). The scanline is consumed whether it succeeds or not (R112). A line drawn from a stale
scanline shows the free values it holds, and is recorded as a fault (70_reset_and_hazards.md R164). -/
def execRenderLine (rsv : BitVec 20) (line : BitVec 8) (s : State) : Host.Outcome State Fault Refusal :=
  if rsv ≠ 0 then .next (consumeScanline (raiseError .rsvField (renderLineWord rsv line) s))
  else if !s.fbValid then .next (consumeScanline (raiseError .noFb (renderLineWord rsv line) s))
  else match writeStop s (renderRows s line) with
    | some r => .refused r
    | none =>
      .next (consumeScanline (recordScanlineFault (readsStale s (renderRows s line))
        (reportRows (renderRows s line) (drawRows s (renderBit s line) (renderRows s line)))))

/-- `ClearScreen()` (40_datapath.md R88). -/
def clearScreen (s : State) : State := drawRows s (clearBit s) (List.range destRows)

/-- SET_MODE (R120). -/
def execSetMode (rsv : BitVec 26) (mode : Mode) (s : State) : Host.Outcome State Fault Refusal :=
  if rsv ≠ 0 then .next (raiseError .rsvField (setModeWord rsv mode) s)
  else if !s.fbValid then .next (raiseError .noFb (setModeWord rsv mode) s)
  else match writeStop s (List.range destRows) with
    | some r => .refused r
    | none => .next (setRedrawPending true (clearScreen (selectMode mode s)))

end Sys2Proof.Machine
end

