-- ==== Sys2Proof/Machine/Control.lean ====
section
/-! DEFINITION. The other commands, SET_INTERLACE (42_control.md R121) and END_FRAME (R122), and the dispatch of a word
written to CMD (30_encoding.md R66). -/

namespace Sys2Proof.Machine

/-- SET_INTERLACE (R121). FB_VALID is not required. -/
def execSetInterlace (rsv : BitVec 27) (en : BitVec 1) (s : State) : Host.Outcome State Fault Refusal :=
  if rsv ≠ 0 then .next (raiseError .rsvField (setInterlaceWord rsv en) s)
  else .next (setInterlaceFlag (en == 1) s)

/-- END_FRAME (R122). -/
def execEndFrame (rsv : BitVec 28) (s : State) : Host.Outcome State Fault Refusal :=
  if rsv ≠ 0 then .next (raiseError .rsvField (endFrameWord rsv) s)
  else if s.fullRedrawPending then .next (setRedrawPending false (setReport 0 destRows s))
  else .next (setReport 0 0 s)

/-- WR_CMD: run the command the word stands for, or record a reserved OP (R66, R141). -/
def execWrCmd (w : Word) (s : State) : Host.Outcome State Fault Refusal :=
  match decodeCommand w with
  | .renderLine rsv line => execRenderLine rsv line s
  | .setMode rsv mode => execSetMode rsv mode s
  | .setInterlace rsv en => execSetInterlace rsv en s
  | .endFrame rsv => execEndFrame rsv s
  | _ => .next (raiseError .rsvOpcode w s)

end Sys2Proof.Machine
end

