-- ==== Sys2Proof/Machine/Registers.lean ====
section
/-! DEFINITION. The register accesses (42_control.md R123 to R128). None raises an error, and a read has no side
effect on the block (20_memory.md R48). -/

namespace Sys2Proof.Machine

/-- RD_CMD returns 0 (R128). -/
def execRdCmd (s : State) : Host.Outcome State Fault Refusal := .next (returnWord 0 s)

/-- RD_STATUS (R125). -/
def execRdStatus (s : State) : Host.Outcome State Fault Refusal := .next (returnWord (statusWord s) s)

/-- RD_RESULT (R126). -/
def execRdResult (s : State) : Host.Outcome State Fault Refusal := .next (returnWord (resultWord s) s)

/-- WR_FB_BASE (R123). -/
def execWrFbBase (v : Word) (s : State) : Host.Outcome State Fault Refusal := .next (writeFbBase v s)

/-- RD_FB_BASE (R123). -/
def execRdFbBase (s : State) : Host.Outcome State Fault Refusal := .next (returnWord s.fbBase s)

/-- RD_ERR_CMD (R127). -/
def execRdErrCmd (s : State) : Host.Outcome State Fault Refusal := .next (returnWord s.errCmd s)

/-- WR_SLW to SLW[i], i = 0..31 (R124). -/
def execWrSlwLow (i : BitVec 5) (v : Word) (s : State) : Host.Outcome State Fault Refusal :=
  .next (writeSlw ⟨i.toNat, by omega⟩ v s)

/-- WR_SLW to SLW[32 + i], i = 0..7 (R124). -/
def execWrSlwHigh (i : BitVec 3) (v : Word) (s : State) : Host.Outcome State Fault Refusal :=
  .next (writeSlw ⟨32 + i.toNat, by omega⟩ v s)

/-- WR_RO to STATUS is ignored (R128). -/
def execWrRoStatus (_v : Word) (s : State) : Host.Outcome State Fault Refusal := .next s

/-- WR_RO to RESULT is ignored (R128). -/
def execWrRoResult (_v : Word) (s : State) : Host.Outcome State Fault Refusal := .next s

/-- WR_RO to ERR_CMD is ignored (R128). -/
def execWrRoErrCmd (_v : Word) (s : State) : Host.Outcome State Fault Refusal := .next s

/-- RD_WO of SLW[i], i = 0..31, returns 0 (R128). -/
def execRdWoLow (_i : BitVec 5) (s : State) : Host.Outcome State Fault Refusal := .next (returnWord 0 s)

/-- RD_WO of SLW[32 + i], i = 0..7, returns 0 (R128). -/
def execRdWoHigh (_i : BitVec 3) (s : State) : Host.Outcome State Fault Refusal := .next (returnWord 0 s)

/-- RESERVED: a read returns 0 and a write is ignored (R128). -/
def execReserved (op : BusOp) (_offset : BitVec 9) (s : State) : Host.Outcome State Fault Refusal :=
  match op with
  | .read => .next (returnWord 0 s)
  | .write _ => .next s

end Sys2Proof.Machine
end

