-- ==== Sys2Proof/Machine/Dispatch.lean ====
section
/-! DEFINITION. The meaning of each instruction: one arm per constructor of Instr. -/

namespace Sys2Proof.Machine

def exec (i : Instr) (s : State) : Host.Outcome State Fault Refusal :=
  match i with
  | .renderLine rsv line => Sys2Proof.Machine.execRenderLine rsv line s
  | .setMode rsv mode => Sys2Proof.Machine.execSetMode rsv mode s
  | .setInterlace rsv en => Sys2Proof.Machine.execSetInterlace rsv en s
  | .endFrame rsv => Sys2Proof.Machine.execEndFrame rsv s
  | .wrCmd w => Sys2Proof.Machine.execWrCmd w s
  | .rdCmd => Sys2Proof.Machine.execRdCmd s
  | .rdStatus => Sys2Proof.Machine.execRdStatus s
  | .rdResult => Sys2Proof.Machine.execRdResult s
  | .wrFbBase v => Sys2Proof.Machine.execWrFbBase v s
  | .rdFbBase => Sys2Proof.Machine.execRdFbBase s
  | .rdErrCmd => Sys2Proof.Machine.execRdErrCmd s
  | .wrSlwLow n v => Sys2Proof.Machine.execWrSlwLow n v s
  | .wrSlwHigh n v => Sys2Proof.Machine.execWrSlwHigh n v s
  | .wrRoStatus v => Sys2Proof.Machine.execWrRoStatus v s
  | .wrRoResult v => Sys2Proof.Machine.execWrRoResult v s
  | .wrRoErrCmd v => Sys2Proof.Machine.execWrRoErrCmd v s
  | .rdWoLow n => Sys2Proof.Machine.execRdWoLow n s
  | .rdWoHigh n => Sys2Proof.Machine.execRdWoHigh n s
  | .reserved op offset => Sys2Proof.Machine.execReserved op offset s

end Sys2Proof.Machine
end

