-- ==== Sys2Proof/Machine/Step.lean ====
section
/-! DEFINITION. One step: the host's next event (10_state.md R20). -/

namespace Sys2Proof.Machine

/-- The refusal of an access that is no instruction (60_exceptions.md R151). -/
def refusalOf : DecodeError → Refusal
  | .subWord => .subWordAccess
  | .wide => .wideAccess
  | .misaligned => .misalignedAccess
  | .burst => .burstAccess

/-- An access to the register window runs the instruction it decodes to. -/
def runAccess (a : BusAccess) (s : State) : Host.Outcome State Fault Refusal :=
  match decode a with
  | .ok i => exec i s
  | .error e => .refused (refusalOf e)

/-- An event of the host or the platform. An access at a bus address no byte
of which lies in the window does not reach the block (notes/assumptions/20.md, 24.md). -/
def runEvent (e : HostEvent) (s : State) : Host.Outcome State Fault Refusal :=
  match e with
  | .access a => runAccess a s
  | .accessAt address op size furtherBeats =>
    match windowOffset s.params address (accessBytes size * (furtherBeats + 1)) with
    | some offset => runAccess ⟨op, offset, size, decide (furtherBeats ≠ 0)⟩ s
    | none => .next s
  | .raced a watched =>
    match runAccess a s with
    | .next t => .next (recordRace s t watched)
    | .fault r => .fault r
    | .refused r => .refused r
  | .storeByte address b => .next (hostStore address b s)
  | .loadByte address => .next (hostLoad address s)
  | .reset => .next (blockReset s)

/-- The next event of the host, taken from the front of its list. With nothing to do, the block holds its state
(60_exceptions.md R149; notes/assumptions/2.md). -/
def step (s : State) : Host.Outcome State Fault Refusal :=
  match s.host with
  | [] => .next s
  | e :: rest => runEvent e (setHost rest s)

/-- The state with an access placed as the host's next event, its bits numbered as the opcode table numbers them. -/
def State.withFetchWord (s : State) (nbits w : Nat) : State :=
  match tableAccess nbits w with
  | some a => setHost (.access a :: s.host) s
  | none => s

end Sys2Proof.Machine
end

