-- ==== Sys2Proof/Safety.lean ====
section
/-! DEFINITION. The invariant of the machine, the duties of the host (70_reset_and_hazards.md R170), and when a command
runs with its own effect. -/

namespace Sys2Proof.Machine

/-- What every step keeps, from any state: the canonical form of memory, the idle writer (10_state.md R30), the
hard-wired bits of FB_BASE (R26), and what STATUS, ERR_CMD and RESULT can hold together (R24, R25, R27). -/
structure Inv (s : State) : Prop where
  memCanonical : Memory.wf s.mem
  writerIdle : s.writer.acc = 0 ∧ s.writer.nb = 0
  fbBaseAligned : s.fbBase.toNat % wordBytes s.params = 0
  fbBaseUnset : s.fbValid = false → s.fbBase = 0
  errorAbsent : s.err = false → s.errCause = .none ∧ s.errCmd = 0
  errorCaused : s.err = true → s.errCause ≠ .none
  emptyReport : s.rowCount = 0 → s.firstRow = 0
  reportInside : s.firstRow.toNat + s.rowCount.toNat ≤ destRows
  reportCount : s.rowCount.toNat ≤ 2 ∨ s.rowCount.toNat = destRows

/-- Rendering follows the mode's rules: the interlace flag is clear, or has no effect (00_scope.md R13, R111). -/
def interlaceInert (s : State) : Bool := !interlaceActive s

/-- The framebuffer can be drawn: FB_BASE has been written, the region does not wrap, and the memory bus takes every
row (R46, R141, R151). -/
def framebufferReady (s : State) : Bool :=
  s.fbValid && regionFits s && (List.range destRows).all (fun r => !rowRejected s r)

/-- A line can be rendered: FB_BASE has been written, and, unless all its rows are dropped, the region does not wrap
and the memory bus takes the line's rows (R46, R109, R141, R151). -/
def lineReady (s : State) (line : BitVec 8) : Bool :=
  s.fbValid && ((renderRows s line).isEmpty ||
    (regionFits s && (renderRows s line).all (fun r => !rowRejected s r)))

/-- Byte `i` of an access that begins at a bus address lies in the register window; addresses wrap at 2^32 (R11,
10_state.md R22). -/
abbrev inWindow (p : Params) (address : BitVec 32) (i : Nat) : Prop :=
  (regBase p).toNat ≤ (address.toNat + i) % 2 ^ 32 ∧ (address.toNat + i) % 2 ^ 32 < (regBase p).toNat + 0x200

/-- A command word executes with its command's own effect: its reserved field is 0, and a command that draws finds its
line or the framebuffer ready (R100, R120, R121, R122). -/
def commandReady (w : Word) (s : State) : Bool :=
  match decodeCommand w with
  | .renderLine rsv line => rsv == 0 && lineReady s line
  | .setMode rsv _ => rsv == 0 && framebufferReady s
  | .setInterlace rsv _ => rsv == 0
  | .endFrame rsv => rsv == 0
  | _ => false

/-- The command an instruction runs: a write to CMD runs the command its word stands for (R66). -/
def commandOf : Instr → Instr
  | .wrCmd w => decodeCommand w
  | i => i

/-- The outcome with a change made to its next state, if it has one. -/
def mapNext (f : State → State) : Host.Outcome State Fault Refusal → Host.Outcome State Fault Refusal
  | .next t => .next (f t)
  | .fault r => .fault r
  | .refused r => .refused r

/-- The host keeps its duties in an instruction (R170): it has written all 40 SLW registers before each RENDER_LINE,
also before one whose rows are all dropped (R164), it keeps the region inside the address space when it writes FB_BASE,
and a command that draws finds it there (R46). A command that records an error is exempt: R170 gives a missing FB_BASE
its cause, and program P4 of 95_test_vectors.md runs such RENDER_LINEs with no register written
(notes/assumptions/6.md). -/
def dutiesKept (i : Instr) (s : State) : Bool :=
  match commandOf i with
  | .renderLine rsv line =>
    rsv != 0 || !s.fbValid || (scanlineLoaded s && ((renderRows s line).isEmpty || regionFits s))
  | .setMode rsv _ => rsv != 0 || !s.fbValid || regionFits s
  | .wrFbBase v => regionFits (writeFbBase v s)
  | _ => true

/-- The access to the window that an event makes, if it makes one (R11, R22, R67). -/
def accessOf (p : Params) : HostEvent → Option BusAccess
  | .access a => some a
  | .accessAt address op size furtherBeats =>
    (windowOffset p address (accessBytes size * (furtherBeats + 1))).map
      fun offset => ⟨op, offset, size, decide (furtherBeats ≠ 0)⟩
  | .raced a _ => some a
  | .storeByte _ _ => none
  | .loadByte _ => none
  | .reset => none

/-- The host keeps its duties in an event: those of the instruction it runs, if it runs one. -/
def eventDutiesKept (e : HostEvent) (s : State) : Bool :=
  match (accessOf s.params e).map decode with
  | some (.ok i) => dutiesKept i s
  | _ => true

/-- A move of a run in which the host keeps its duties: a step in which it keeps them, and after which no stale read is
recorded. A run that breaks a duty has no move (70_reset_and_hazards.md R170), although the machine has a step. -/
def move (s : State) : Option State :=
  if s.host.head?.all (eventDutiesKept · s) then
    match step s with
    | .next t => if t.scanlineFault then none else some t
    | .fault _ => none
    | .refused _ => none
  else none

end Sys2Proof.Machine
end

