-- ==== Sys2Proof/Certificates/Slice0/Obligations.lean ====
section
/-! DEFINITION. What is claimed of the machine, for the provers. A statement about a free value holds for every value of
it. Where memory is compared, `Memory.wf` is the invariant `Inv.memCanonical`, which `StepKeepsInvariant` and
`ResetMeetsInvariant` state. -/

open Sys2Proof Sys2Proof.Machine

/-! ### Decoding and the step -/

/-- Decoding undoes encoding, for every well-formed instruction (30_encoding.md R60, R67). -/
def Obligations.DecodeOfEncodeIsInstr : Prop :=
  ∀ i : Instr, i.wellFormed = true → decode (encode i) = .ok i

/-- Each access has one meaning: what decodes is the encoding of a well-formed instruction (R60, R67). -/
def Obligations.EncodeOfDecodeIsAccess : Prop :=
  ∀ (a : BusAccess) (i : Instr), decode a = .ok i → i.wellFormed = true ∧ encode i = a

/-- An access decodes just where it is an aligned 32-bit access that is no burst (20_memory.md R49,
60_exceptions.md R151). -/
def Obligations.ExactlyAlignedWordAccessesDecode : Prop :=
  ∀ a : BusAccess,
    (∃ i, decode a = .ok i) ↔ (a.size = .word ∧ a.burst = false ∧ a.offset.toNat % 4 = 0)

/-- Words written out from R60 and R67, at least one for each row of the table, decode to the instructions they stand
for. That a write's data follows its key is the model's numbering (notes/assumptions/19.md). -/
def Obligations.WrittenOutWordsDecode : Prop :=
  decodeTableWord 32 0x1000008F = some (.renderLine 0 143) ∧
  decodeTableWord 32 0x20000003 = some (.setMode 0 .sliced) ∧
  decodeTableWord 32 0x30000001 = some (.setInterlace 0 1) ∧
  decodeTableWord 32 0x40000000 = some (.endFrame 0) ∧
  decodeTableWord 32 0x10000100 = some (.renderLine 1 0) ∧
  decodeTableWord 32 0xF0000000 = some (.wrCmd 0xF0000000) ∧
  decodeTableWord 48 0xF00000000200 = some (.wrCmd 0xF0000000) ∧
  decodeTableWord 16 0x0000 = some .rdCmd ∧
  decodeTableWord 16 0x0004 = some .rdStatus ∧
  decodeTableWord 16 0x0008 = some .rdResult ∧
  decodeTableWord 48 0x20000003020C = some (.wrFbBase 0x20000003) ∧
  decodeTableWord 16 0x000C = some .rdFbBase ∧
  decodeTableWord 16 0x0010 = some .rdErrCmd ∧
  decodeTableWord 48 0x03020100037C = some (.wrSlwLow 31 0x03020100) ∧
  decodeTableWord 48 0x03020100039C = some (.wrSlwHigh 7 0x03020100) ∧
  decodeTableWord 48 0x000000050204 = some (.wrRoStatus 5) ∧
  decodeTableWord 48 0x000000050208 = some (.wrRoResult 5) ∧
  decodeTableWord 48 0x000000050210 = some (.wrRoErrCmd 5) ∧
  decodeTableWord 16 0x017C = some (.rdWoLow 31) ∧
  decodeTableWord 16 0x0180 = some (.rdWoHigh 0) ∧
  decodeTableWord 16 0x019C = some (.rdWoHigh 7) ∧
  decodeTableWord 16 0x0020 = some (.reserved .read 0x020) ∧
  decodeTableWord 48 0x0000000503A0 = some (.reserved (.write 5) 0x1A0) ∧
  decodeTableWord 16 0x0001 = none

/-- One host access is one step: it runs the instruction the access decodes to, on the state without that access; with
nothing to do, the block holds its state (10_state.md R20, 60_exceptions.md R149). The list of the host's accesses and
the idle step are the model's (notes/assumptions/1.md, 2.md). -/
def Obligations.StepRunsDecodedInstr : Prop :=
  (∀ (s : State) (a : BusAccess) (rest : List HostEvent) (i : Instr),
    s.host = .access a :: rest → decode a = .ok i → step s = exec i { s with host := rest }) ∧
  (∀ s : State, s.host = [] → step s = .next s)

/-- An access that begins in the 0x200 bytes at REG_BASE is the access at its offset; one that begins outside and has a
byte there is refused by name; one with no byte there changes nothing but the host's list (00_scope.md R11, 10_state.md
R22, R49, R67, R151). The bytes of an access, and so the second clause, are the model's reading
(notes/assumptions/24.md); that an access outside the window leaves the block and memory is too
(notes/assumptions/20.md). -/
def Obligations.WindowIsAtRegBase : Prop :=
  ∀ (s : State) (op : BusOp) (size : AccessSize) (furtherBeats : Nat) (address : BitVec 32) (rest : List HostEvent),
    s.host = .accessAt address op size furtherBeats :: rest →
    (∀ offset : BitVec 9, address.toNat = (regBase s.params).toNat + offset.toNat →
      step s = step { s with host := .access ⟨op, offset, size, decide (furtherBeats ≠ 0)⟩ :: rest }) ∧
    (¬ inWindow s.params address 0 → (∃ i < accessBytes size * (furtherBeats + 1), inWindow s.params address i) →
      step s = .refused
        (if furtherBeats ≠ 0 then .burstAccess else match size with
          | .byte => .subWordAccess
          | .half => .subWordAccess
          | .word => .misalignedAccess
          | .double => .wideAccess)) ∧
    ((∀ i < accessBytes size * (furtherBeats + 1), ¬ inWindow s.params address i) →
      step s = .next { s with host := rest })

/-- A sub-word, wide, misaligned or burst access of the window is refused by name, whatever else holds (R49, R151). The
refusal of an access wider than 32 bits is the model's reading (notes/assumptions/13.md). -/
def Obligations.UndefinedAccessIsRefused : Prop :=
  ∀ (s : State) (a : BusAccess) (rest : List HostEvent), s.host = .access a :: rest →
    (a.burst = true → step s = .refused .burstAccess) ∧
    (a.burst = false → a.size = .byte ∨ a.size = .half → step s = .refused .subWordAccess) ∧
    (a.burst = false → a.size = .double → step s = .refused .wideAccess) ∧
    (a.burst = false → a.size = .word → a.offset.toNat % 4 ≠ 0 → step s = .refused .misalignedAccess)

/-! ### Writes to CMD and errors -/

/-- A write of `w` to CMD runs the command that OP selects, with the fields R60 gives, or records a reserved OP
(R60, R62, R66, R141, R143). -/
def Obligations.CmdWriteDispatchesOnOp : Prop :=
  ∀ (w : Word) (s : State),
    (w.extractLsb' 28 4 = 0x1 →
      exec (.wrCmd w) s = exec (.renderLine (w.extractLsb' 8 20) (w.extractLsb' 0 8)) s) ∧
    (∀ m : Mode, w.extractLsb' 28 4 = 0x2 → w.extractLsb' 0 2 = m.toBits →
      exec (.wrCmd w) s = exec (.setMode (w.extractLsb' 2 26) m) s) ∧
    (w.extractLsb' 28 4 = 0x3 →
      exec (.wrCmd w) s = exec (.setInterlace (w.extractLsb' 1 27) (w.extractLsb' 0 1)) s) ∧
    (w.extractLsb' 28 4 = 0x4 → exec (.wrCmd w) s = exec (.endFrame (w.extractLsb' 0 28)) s) ∧
    ((w.extractLsb' 28 4 = 0x0 ∨ 0x5 ≤ (w.extractLsb' 28 4).toNat) →
      exec (.wrCmd w) s =
        .next (if s.err = true then s else { s with err := true, errCause := .rsvOpcode, errCmd := w }))

/-- A write to CMD of a word that meets its command's conditions completes, as the command does, and raises no error
(R66, R100, R120, R121, R122). -/
def Obligations.ReadyCommandWordCompletes : Prop :=
  ∀ (w : Word) (s : State), commandReady w s = true →
    ∃ t, exec (.wrCmd w) s = .next t ∧ exec (decodeCommand w) s = .next t ∧
      t.err = s.err ∧ t.errCause = s.errCause ∧ t.errCmd = s.errCmd

/-- A nonzero reserved field is recorded as cause 2, whatever FB_VALID is, and has no other effect, but that
RENDER_LINE consumes the scanline (R60, R112, R141, R142, R143). The recorded word is the command word. -/
def Obligations.ReservedFieldRecordsCauseTwo : Prop :=
  ∀ s : State,
    (∀ (rsv : BitVec 20) (line : BitVec 8), rsv ≠ 0 → exec (.renderLine rsv line) s =
      .next { (if s.err = true then s else
          { s with err := true, errCause := .rsvField, errCmd := 0x1#4 ++ rsv ++ line }) with
        slwFresh := Vector.replicate 40 false, freeCtr := s.freeCtr + 1 }) ∧
    (∀ (rsv : BitVec 26) (m : Mode), rsv ≠ 0 → exec (.setMode rsv m) s =
      .next (if s.err = true then s else
        { s with err := true, errCause := .rsvField, errCmd := 0x2#4 ++ rsv ++ m.toBits })) ∧
    (∀ (rsv : BitVec 27) (en : BitVec 1), rsv ≠ 0 → exec (.setInterlace rsv en) s =
      .next (if s.err = true then s else
        { s with err := true, errCause := .rsvField, errCmd := 0x3#4 ++ rsv ++ en })) ∧
    (∀ rsv : BitVec 28, rsv ≠ 0 → exec (.endFrame rsv) s =
      .next (if s.err = true then s else
        { s with err := true, errCause := .rsvField, errCmd := 0x4#4 ++ rsv }))

/-- RENDER_LINE and SET_MODE before FB_BASE is written are recorded as cause 3, and have no other effect, but that
RENDER_LINE consumes the scanline (R100, R112, R120, R141, R143). -/
def Obligations.NoFramebufferRecordsCauseThree : Prop :=
  ∀ s : State, s.fbValid = false →
    (∀ line : BitVec 8, exec (.renderLine 0 line) s =
      .next { (if s.err = true then s else
          { s with err := true, errCause := .noFb, errCmd := 0x1#4 ++ 0#20 ++ line }) with
        slwFresh := Vector.replicate 40 false, freeCtr := s.freeCtr + 1 }) ∧
    (∀ m : Mode, exec (.setMode 0 m) s =
      .next (if s.err = true then s else
        { s with err := true, errCause := .noFb, errCmd := 0x2#4 ++ 0#26 ++ m.toBits }))

/-- Once recorded, the first error stays, through every step but a reset (R143, R144). -/
def Obligations.ErrorIsStickyUntilReset : Prop :=
  ∀ s t : State, step s = .next t → s.err = true → (∀ rest, s.host ≠ .reset :: rest) →
    t.err = true ∧ t.errCause = s.errCause ∧ t.errCmd = s.errCmd

/-! ### The control commands -/

/-- SET_INTERLACE stores the flag and changes nothing else; FB_VALID is not required (42_control.md R121). -/
def Obligations.SetInterlaceStoresFlag : Prop :=
  ∀ (en : BitVec 1) (s : State),
    exec (.setInterlace 0 en) s = .next { s with interlace := decide (en.toNat = 1) }

/-- END_FRAME reports every row if the mark is set and none otherwise, clears the mark, and changes nothing else
(R122). -/
def Obligations.EndFrameReportsAndConsumesMark : Prop :=
  ∀ s : State,
    exec (.endFrame 0) s =
      .next { s with
        firstRow := 0
        rowCount := (if s.fullRedrawPending = true then 240 else 0)
        fullRedrawPending := false }

/-- The mark SET_MODE sets stays until an END_FRAME reports the full redraw (R120, R122). -/
def Obligations.ModeSwitchForcesFullRedraw : Prop :=
  (∀ (s : State) (m : Mode), framebufferReady s = true →
    ∃ t, exec (.setMode 0 m) s = .next t ∧ t.fullRedrawPending = true) ∧
  (∀ (i : Instr) (s t : State), exec i s = .next t → s.fullRedrawPending = true →
    t.fullRedrawPending = true ∨ (commandOf i = .endFrame 0 ∧ t.firstRow = 0 ∧ t.rowCount = 240))

/-- SET_MODE selects the mode, writes FILL_BIT to every column of every row, padding included, sets the mark, and
leaves everything else, RESULT and every byte outside the framebuffer region among it; the writer ends idle at the end
of the region (40_datapath.md R88, R120). -/
def Obligations.SetModeClearsScreenAndMarks : Prop :=
  ∀ (s : State) (m : Mode), Memory.wf s.mem → framebufferReady s = true →
    ∃ t, exec (.setMode 0 m) s = .next t ∧
      t = { s with
        mode := m
        fullRedrawPending := true
        mem := t.mem
        writer := ⟨0, 0, s.fbBase + BitVec.ofNat 32 (240 * strideBytes s.params)⟩ } ∧
      (∀ r k, r < 240 → k < 8 * strideBytes s.params → framebufferPixel t r k = some s.params.fillBit) ∧
      (∀ a, a < s.fbBase.toNat ∨ s.fbBase.toNat + 240 * strideBytes s.params ≤ a → t.mem.read a = s.mem.read a)

/-! ### RENDER_LINE -/

/-- RENDER_LINE writes the rows of the mode's row map, each column of each with the dithered gray level of the pixel it
shows, or FILL_BIT where it shows none; it reports the rows, consumes the scanline, leaves the writer idle at the end of
the last row, leaves every other byte of memory, and changes nothing else (40_datapath.md R83, R86, R87, 41_render.md
R100, R110, R112). What the bus does with other rows does not matter. A pixel that is stale shows the free value it holds,
and a row drawn from one is recorded in the model's own `scanlineFault` (R164; notes/assumptions/6.md). -/
def Obligations.RenderLineDrawsItsRows : Prop :=
  ∀ (s : State) (line : BitVec 8),
    Memory.wf s.mem → lineReady s line = true → interlaceInert s = true →
    ∃ t, exec (.renderLine 0 line) s = .next t ∧
      t = { s with
        firstRow := BitVec.ofNat 8 ((rowMap s.mode line.toNat).headD 0)
        rowCount := BitVec.ofNat 8 (rowMap s.mode line.toNat).length
        slwFresh := Vector.replicate 40 false
        freeCtr := s.freeCtr + 1
        mem := t.mem
        scanlineFault := (s.scanlineFault || (!(rowMap s.mode line.toNat).isEmpty && !scanlineLoaded s))
        writer := (if rowMap s.mode line.toNat = [] then s.writer
          else ⟨0, 0, s.fbBase +
            BitVec.ofNat 32 (((rowMap s.mode line.toNat).getLastD 0 + 1) * strideBytes s.params)⟩) } ∧
      (∀ r ∈ rowMap s.mode line.toNat, ∀ k < 8 * strideBytes s.params,
        framebufferPixel t r k = some
          (match (if k < 400 then colMap s.mode k else none) with
            | none => s.params.fillBit
            | some x => dither s.params (mask (slByte s x)) r k)) ∧
      (∀ a, (∀ r ∈ rowMap s.mode line.toNat,
          a < s.fbBase.toNat + r * strideBytes s.params ∨ s.fbBase.toNat + (r + 1) * strideBytes s.params ≤ a) →
        t.mem.read a = s.mem.read a)

/-- With the interlace flag set and an effect the spec does not give, RENDER_LINE still writes whole rows, at most two,
contiguous, inside the image, reports exactly those, consumes the scanline, leaves the writer idle at the end of the last
row, leaves every other byte, and changes nothing else but the model's own counter and record of a stale read
(00_scope.md R13, R25, R41, R83, R86, R87, R110, R112). That an unspecified effect keeps these is the model's choice, and which rows and bits it writes is
free (notes/assumptions/10.md). -/
def Obligations.UnspecifiedInterlaceStaysInBounds : Prop :=
  ∀ (s : State) (line : BitVec 8),
    Memory.wf s.mem → framebufferReady s = true → interlaceActive s = true →
    ∃ t, exec (.renderLine 0 line) s = .next t ∧
      t = { s with
        firstRow := t.firstRow
        rowCount := t.rowCount
        slwFresh := Vector.replicate 40 false
        freeCtr := s.freeCtr + 1
        mem := t.mem
        scanlineFault := (s.scanlineFault || (decide (t.rowCount ≠ 0) && !scanlineLoaded s))
        writer := (if t.rowCount = 0 then s.writer
          else ⟨0, 0, s.fbBase +
            BitVec.ofNat 32 ((t.firstRow.toNat + t.rowCount.toNat) * strideBytes s.params)⟩) } ∧
      t.rowCount.toNat ≤ 2 ∧ t.firstRow.toNat + t.rowCount.toNat ≤ 240 ∧
      (∀ r k, t.firstRow.toNat ≤ r → r < t.firstRow.toNat + t.rowCount.toNat → k < 8 * strideBytes s.params →
        (framebufferPixel t r k).isSome = true) ∧
      (∀ a, (a < s.fbBase.toNat + t.firstRow.toNat * strideBytes s.params ∨
          s.fbBase.toNat + (t.firstRow.toNat + t.rowCount.toNat) * strideBytes s.params ≤ a) →
        t.mem.read a = s.mem.read a)

/-- A RENDER_LINE that draws from a scanline of which some register is not written since the last RENDER_LINE or reset
completes and records a fault; nothing else records one, and no step leaves the record (41_render.md R112,
70_reset_and_hazards.md R164, 93_implementation_defined.md section 1). The record, and that a dropped line reads no
pixel, are the model's reading (notes/assumptions/6.md). -/
def Obligations.StaleScanlineFaults : Prop :=
  (∀ (s : State) (line : BitVec 8),
    framebufferReady s = true → interlaceInert s = true → rowMap s.mode line.toNat ≠ [] → scanlineLoaded s = false →
    ∃ t, exec (.renderLine 0 line) s = .next t ∧ t.scanlineFault = true) ∧
  (∀ (i : Instr) (s t : State), exec i s = .next t → t.scanlineFault ≠ s.scanlineFault →
    ∃ line, commandOf i = .renderLine 0 line ∧ s.fbValid = true ∧ renderRows s line ≠ [] ∧ scanlineLoaded s = false) ∧
  (∀ s t : State, step s = .next t → s.scanlineFault = true → t.scanlineFault = true)

/-- A run has no move where the host has broken a duty of the instruction it runs (70_reset_and_hazards.md R170): where
it has not written all 40 SLW registers before a RENDER_LINE, dropped or not (R164), where it writes an FB_BASE whose
region wraps, and where a command would draw such a region (R46). Where the duties are kept, and no stale read is
recorded, the moves are the machine's steps. That a run is told apart from the machine's steps by `move`, and that a
command that records an error has its move, is the model's (notes/assumptions/6.md). -/
def Obligations.BrokenDutyHasNoMove : Prop :=
  ∀ (s : State) (e : HostEvent) (rest : List HostEvent) (a : BusAccess) (i : Instr),
    s.host = e :: rest → accessOf s.params e = some a → decode a = .ok i →
    (∀ line, commandOf i = .renderLine 0 line → s.fbValid = true → scanlineLoaded s = false → move s = none) ∧
    (∀ v, i = .wrFbBase v → 2 ^ 32 < (writeFbBase v s).fbBase.toNat + 240 * strideBytes s.params → move s = none) ∧
    (dutiesKept i s = false → move s = none) ∧
    (dutiesKept i s = true → s.scanlineFault = false → ∀ t, move s = some t ↔ step s = .next t)

/-- A line whose rows are all dropped writes nothing, reports an empty span and is no error (R100, R109). That it runs
wherever the framebuffer lies, a region that wraps included (20_memory.md R46), and with any scanline and no
stale read recorded (R164), is the model's reading (notes/assumptions/11.md, 6.md). -/
def Obligations.DroppedLineWritesNothing : Prop :=
  ∀ (s : State) (line : BitVec 8),
    s.fbValid = true → interlaceInert s = true → rowMap s.mode line.toNat = [] →
    exec (.renderLine 0 line) s = .next { s with
      firstRow := 0, rowCount := 0, slwFresh := Vector.replicate 40 false, freeCtr := s.freeCtr + 1 }

/-- The report is exactly the set of rows written, at most two, and 0 for an empty span (R110, 10_state.md R25). -/
def Obligations.ReportIsExactlyTheRowsWritten : Prop :=
  ∀ (s : State) (line : BitVec 8), lineReady s line = true → interlaceInert s = true →
    ∃ t, exec (.renderLine 0 line) s = .next t ∧
      (∀ r, r ∈ rowMap s.mode line.toNat ↔
        (t.firstRow.toNat ≤ r ∧ r < t.firstRow.toNat + t.rowCount.toNat)) ∧
      t.rowCount.toNat ≤ 2 ∧ (t.rowCount = 0 → t.firstRow = 0)

/-- A scanline of one gray level draws only that level's pattern in the image span, and FILL_BIT elsewhere (R113). -/
def Obligations.UniformScanlineShowsOnePattern : Prop :=
  ∀ (s : State) (line : BitVec 8) (c : BitVec 2),
    Memory.wf s.mem → lineReady s line = true → interlaceInert s = true → (∀ x, mask (slByte s x) = c) →
    ∃ t, exec (.renderLine 0 line) s = .next t ∧
      ∀ r ∈ rowMap s.mode line.toNat, ∀ k < 8 * strideBytes s.params,
        framebufferPixel t r k = some
          (if horizontalMargin s.mode ≤ k ∧ k < horizontalMargin s.mode + imageWidth s.mode then
            lutBit s.params c (r % 4) (k % 4)
          else s.params.fillBit)

/-- With the same scanline, rendering a line again writes the same bytes (R100). The counter of the free values is part
of the scanline, since what a stale register holds is taken at it (notes/assumptions/6.md, 7.md). -/
def Obligations.RenderingAgainWritesTheSame : Prop :=
  ∀ (s t : State) (line : BitVec 8), Memory.wf s.mem → exec (.renderLine 0 line) s = .next t →
    ∃ u, exec (.renderLine 0 line) { t with slwFresh := s.slwFresh, freeCtr := s.freeCtr } = .next u ∧
      ∀ a, u.mem.read a = t.mem.read a

/-- Only the low two bits of each pixel byte matter to RENDER_LINE (40_datapath.md R80). -/
def Obligations.RenderUsesOnlyTheMaskedPixels : Prop :=
  ∀ (s : State) (pixels : Vector Word 40) (rsv : BitVec 20) (line : BitVec 8),
    (∀ x, (slByte { s with slw := pixels } x).toNat % 4 = (slByte s x).toNat % 4) →
    exec (.renderLine rsv line) { s with slw := pixels } =
      mapNext (fun t => { t with slw := pixels }) (exec (.renderLine rsv line) s)

/-- Where the interlace effect is the reference one, none, RENDER_LINE does the same whatever the flag is (00_scope.md
R13, R111). -/
def Obligations.RenderIgnoresInterlaceFlag : Prop :=
  ∀ (s : State) (b : Bool) (rsv : BitVec 20) (line : BitVec 8), s.params.interlaceEffect = .ignored →
    exec (.renderLine rsv line) { s with interlace := b } =
      mapNext (fun t => { t with interlace := b }) (exec (.renderLine rsv line) s)

/-- A pixel byte of a register written since the last RENDER_LINE or reset is what the host wrote; after a RENDER_LINE
that answers a next state every pixel byte is a free one. That a stale register holds a free value is the model's
(notes/assumptions/6.md; R28, R112). -/
def Obligations.ScanlineIsWhatTheHostWroteUntilRendered : Prop :=
  (∀ (s : State) (x : Fin 160), s.slwFresh[x.val / 4]'(Nat.div_lt_of_lt_mul x.isLt) = true →
    slByte s x = (s.slw[x.val / 4]'(Nat.div_lt_of_lt_mul x.isLt)).extractLsb' (8 * (x.val % 4)) 8) ∧
  (∀ (s t : State) (rsv : BitVec 20) (line : BitVec 8) (x : Fin 160), exec (.renderLine rsv line) s = .next t →
    slByte t x = (Config.staleSlw (s.freeCtr + 1) (x.val / 4)).extractLsb' (8 * (x.val % 4)) 8)

/-- A framebuffer region that would wrap past 2^32 is refused to a command that would write it, and only to such a
command (20_memory.md R46, R151). That a RENDER_LINE with no row is no such command, and that the wrap is
named where the bus also rejects a row, is the model's reading (notes/assumptions/11.md). -/
def Obligations.WrappingRegionIsRefused : Prop :=
  (∀ s : State, s.fbValid = true → 2 ^ 32 < s.fbBase.toNat + 240 * strideBytes s.params →
    (∀ m : Mode, exec (.setMode 0 m) s = .refused .framebufferWraps) ∧
    (∀ line : BitVec 8, interlaceInert s = true → rowMap s.mode line.toNat ≠ [] →
      exec (.renderLine 0 line) s = .refused .framebufferWraps)) ∧
  (∀ (i : Instr) (s : State), exec i s = .refused .framebufferWraps →
    s.fbValid = true ∧ 2 ^ 32 < s.fbBase.toNat + 240 * strideBytes s.params ∧
    ((∃ m, commandOf i = .setMode 0 m) ∨ ∃ line, commandOf i = .renderLine 0 line ∧ renderRows s line ≠ []))

/-- A row some byte of which the memory bus rejects is refused to a command that would write it (R151). Which writes
the bus rejects is a parameter (notes/assumptions/12.md). -/
def Obligations.RejectedWriteIsRefused : Prop :=
  ∀ (s : State) (r first length a : Nat),
    s.fbValid = true → s.fbBase.toNat + 240 * strideBytes s.params ≤ 2 ^ 32 → r < 240 →
    (first, length) ∈ s.params.rejected → first ≤ a → a < first + length →
    s.fbBase.toNat + r * strideBytes s.params ≤ a → a < s.fbBase.toNat + (r + 1) * strideBytes s.params →
    (∀ m : Mode, exec (.setMode 0 m) s = .refused .busRejectsWrite) ∧
    (∀ line : BitVec 8, interlaceInert s = true → r ∈ rowMap s.mode line.toNat →
      exec (.renderLine 0 line) s = .refused .busRejectsWrite)

/-! ### The row and column maps -/

/-- Natural: row 48 + L, dropped at 240 (R101). -/
def Obligations.NaturalRowMap : Prop :=
  ∀ l : Nat, rowMap .natural l = (if 48 + l < 240 then [48 + l] else [])

/-- Fitted: the candidates 2L and 2L + 1, less those with d mod 6 = 5, at rows d - d div 6 below 240; so two
consecutive rows where L mod 3 ≠ 2 and one row where L mod 3 = 2, for L below 144, and none above (R103). -/
def Obligations.FittedRowMap : Prop :=
  (∀ l r : Nat, r ∈ rowMap .fitted l ↔
    ∃ d, (d = 2 * l ∨ d = 2 * l + 1) ∧ d % 6 ≠ 5 ∧ r = d - d / 6 ∧ r < 240) ∧
  (∀ l : Nat, l < 144 → l % 3 ≠ 2 → ∃ r, rowMap .fitted l = [r, r + 1]) ∧
  (∀ l : Nat, l < 144 → l % 3 = 2 → ∃ r, rowMap .fitted l = [r]) ∧
  (∀ l : Nat, 144 ≤ l → rowMap .fitted l = [])

/-- Doubled: two rows for a line of the band 12..131, none outside (R105). -/
def Obligations.DoubledRowMap : Prop :=
  ∀ l : Nat, rowMap .doubled l = (if 12 ≤ l ∧ l ≤ 131 then [2 * (l - 12), 2 * (l - 12) + 1] else [])

/-- Sliced: row 12 + (3L) >> 1, dropped at 240; a row 12 + 3m + 2 is no line's (R107). -/
def Obligations.SlicedRowMap : Prop :=
  (∀ l : Nat, rowMap .sliced l = (if 12 + (3 * l) >>> 1 < 240 then [12 + (3 * l) >>> 1] else [])) ∧
  (∀ l m : Nat, 12 + 3 * m + 2 ∉ rowMap .sliced l)

/-- The column maps, and the columns that show no pixel (00_scope.md R12, R102, R104, R106, R108). -/
def Obligations.ColumnMaps : Prop :=
  (∀ (k : Nat) (x : Fin 160), colMap .natural k = some x ↔ (120 ≤ k ∧ k < 280 ∧ x.val = k - 120)) ∧
  (∀ (k : Nat) (x : Fin 160), colMap .fitted k = some x ↔ (40 ≤ k ∧ k < 360 ∧ x.val = (k - 40) >>> 1)) ∧
  (∀ k : Nat, colMap .doubled k = colMap .fitted k) ∧
  (∀ (k : Nat) (x : Fin 160), colMap .sliced k = some x ↔ (80 ≤ k ∧ k < 320 ∧ x.val = (2 * (k - 80) + 1) / 3))

/-- In every mode every source pixel is shown in some column, so that a row reads the whole scanline (R102, R104, R106,
R108). -/
def Obligations.EveryPixelIsShown : Prop :=
  ∀ (m : Mode) (x : Fin 160), ∃ k < 400, colMap m k = some x

/-- Sliced: source pixel x covers the image bits from floor(1.5 x) up to where the next pixel starts (R108). -/
def Obligations.SlicedRunsCoverTheImage : Prop :=
  ∀ (j : Nat) (x : Fin 160), j < 240 →
    (colMap .sliced (80 + j) = some x ↔ ((3 * x.val) >>> 1 ≤ j ∧ j < (3 * (x.val + 1)) >>> 1))

/-- No row is written by two lines of one mode, and the lines of a frame cover every row in Fitted and in Doubled
(R114, R116). -/
def Obligations.EachRowIsWrittenByOneLine : Prop :=
  (∀ (m : Mode) (l l' r : Nat), r ∈ rowMap m l → r ∈ rowMap m l' → l = l') ∧
  (∀ r : Nat, r < 240 → ∃ l, l < 144 ∧ r ∈ rowMap .fitted l) ∧
  (∀ r : Nat, r < 240 → ∃ l, 12 ≤ l ∧ l ≤ 131 ∧ r ∈ rowMap .doubled l)

/-! ### The Bit-Packed Row Writer -/

/-- WORD_BITS emits from an idle writer flush one word at WPTR: its bytes lie at rising addresses, the first bit emitted
is the most significant bit of the first byte, and the writer is idle at the next word (20_memory.md R43, R84, R85). -/
def Obligations.FullWordIsFlushedMsbFirst : Prop :=
  ∀ (p : Params) (bits : List Bool) (wptr : BitVec 32), bits.length = wordBits p →
    (emitBits p bits ⟨0, 0, wptr⟩).1 = ⟨0, 0, wptr + BitVec.ofNat 32 (wordBytes p)⟩ ∧
    (emitBits p bits ⟨0, 0, wptr⟩).2.length = wordBytes p ∧
    ∀ i < wordBytes p, ∃ b : Byte,
      (emitBits p bits ⟨0, 0, wptr⟩).2[i]? = some ((wptr + BitVec.ofNat 32 i).toNat, b) ∧
      ∀ n < 8, b.getLsbD (7 - n) = bits.getD (8 * i + n) false

/-- Fewer than WORD_BITS emits from an idle writer write nothing: the bits wait in ACC, the first at its most
significant bit, and NB counts them (10_state.md R30, R84). -/
def Obligations.PartialWordWaitsInAcc : Prop :=
  ∀ (p : Params) (bits : List Bool) (wptr : BitVec 32), bits.length < wordBits p →
    (emitBits p bits ⟨0, 0, wptr⟩).2 = [] ∧
    (emitBits p bits ⟨0, 0, wptr⟩).1.nb = bits.length ∧
    (emitBits p bits ⟨0, 0, wptr⟩).1.wptr = wptr ∧
    ∀ n < wordBits p,
      (emitBits p bits ⟨0, 0, wptr⟩).1.acc.getLsbD (wordBits p - 1 - n) = bits.getD n false

/-- A row ends on a word boundary: its bits are whole words, and after WriteRow nothing is left to flush (R87). -/
def Obligations.RowEndsOnWordBoundary : Prop :=
  ∀ (s : State) (bit : Nat → Bool) (r : Nat),
    8 * strideBytes s.params % wordBits s.params = 0 ∧
    (writeRow s bit r).1.nb = 0 ∧ (writeRow s bit r).1.acc = 0 ∧
    (writeRow s bit r).1.wptr = s.fbBase + BitVec.ofNat 32 ((r + 1) * strideBytes s.params) ∧
    (writeRow s bit r).2.length = strideBytes s.params

/-- The framebuffer does not depend on WORD_BITS: with another word size and the same stride, a command that draws
leaves the same state, but for that parameter (00_scope.md R7, 20_memory.md R42). -/
def Obligations.FramebufferDoesNotDependOnWordBits : Prop :=
  ∀ (s : State) (size : WordSize) (extra : Nat) (i : Instr),
    strideBytes { s.params with wordSize := size, extraRowWords := extra } = strideBytes s.params →
    (∃ rsv line, i = .renderLine rsv line) ∨ (∃ rsv m, i = .setMode rsv m) →
    exec i { s with params := { s.params with wordSize := size, extraRowWords := extra } } =
      mapNext (fun t => { t with params := { s.params with wordSize := size, extraRowWords := extra } }) (exec i s)

/-! ### Register accesses -/

/-- A write to SLW[i], at offset 0x100 + 4i, sets SL[4i..4i+3] to the bytes of the value, least significant first,
leaves the other pixel bytes, and changes nothing else (10_state.md R28, R124). -/
def Obligations.WriteSlwSetsFourPixels : Prop :=
  (∀ (i : BitVec 5) (v : Word) (s : State),
    (encode (.wrSlwLow i v)).offset.toNat = 0x100 + 4 * i.toNat ∧
    ∃ t, exec (.wrSlwLow i v) s = .next t ∧
      t = { s with slw := t.slw, slwFresh := t.slwFresh } ∧
      (∀ x : Fin 160, slByte t x =
        if x.val / 4 = i.toNat then v.extractLsb' (8 * (x.val % 4)) 8 else slByte s x) ∧
      (∀ j : Fin 40, t.slwFresh[j] = (decide (j.val = i.toNat) || s.slwFresh[j]))) ∧
  (∀ (i : BitVec 3) (v : Word) (s : State),
    (encode (.wrSlwHigh i v)).offset.toNat = 0x100 + 4 * (32 + i.toNat) ∧
    ∃ t, exec (.wrSlwHigh i v) s = .next t ∧
      t = { s with slw := t.slw, slwFresh := t.slwFresh } ∧
      (∀ x : Fin 160, slByte t x =
        if x.val / 4 = 32 + i.toNat then v.extractLsb' (8 * (x.val % 4)) 8 else slByte s x) ∧
      (∀ j : Fin 40, t.slwFresh[j] = (decide (j.val = 32 + i.toNat) || s.slwFresh[j])))

/-- A write to FB_BASE stores the value with the low log2(WORD_BYTES) bits 0 and sets FB_VALID; a read returns FB_BASE;
neither does anything else (10_state.md R26, R123). -/
def Obligations.FbBaseStoresAlignedAddress : Prop :=
  ∀ s : State,
    (∀ v : Word, ∃ t, exec (.wrFbBase v) s = .next t ∧
      t = { s with fbBase := t.fbBase, fbValid := true } ∧
      ∀ b < 32, t.fbBase.getLsbD b = (v.getLsbD b && decide (wordBytes s.params ≤ 2 ^ b))) ∧
    exec .rdFbBase s = .next { s with readData := s.fbBase }

/-- A read of STATUS returns its fields at their places, 0 elsewhere, and has no side effect (R24, R125). -/
def Obligations.ReadStatusReturnsLayout : Prop :=
  ∀ s : State, ∃ t, exec .rdStatus s = .next t ∧ t = { s with readData := t.readData } ∧
    t.readData.extractLsb' 0 2 = (match s.mode with
      | .natural => 0#2
      | .fitted => 1#2
      | .doubled => 2#2
      | .sliced => 3#2) ∧
    t.readData.getLsbD 2 = s.interlace ∧
    t.readData.getLsbD 3 = s.fullRedrawPending ∧
    t.readData.getLsbD 4 = s.fbValid ∧
    t.readData.extractLsb' 5 3 = 0 ∧
    t.readData.getLsbD 8 = s.err ∧
    t.readData.extractLsb' 9 3 = (match s.errCause with
      | .none => 0#3
      | .rsvOpcode => 1#3
      | .rsvField => 2#3
      | .noFb => 3#3) ∧
    t.readData.extractLsb' 12 20 = 0

/-- A read of RESULT returns its fields at their places, 0 elsewhere, and has no side effect (R25, R126). -/
def Obligations.ReadResultReturnsLayout : Prop :=
  ∀ s : State, ∃ t, exec .rdResult s = .next t ∧ t = { s with readData := t.readData } ∧
    t.readData.extractLsb' 0 8 = s.firstRow ∧
    t.readData.extractLsb' 8 8 = s.rowCount ∧
    t.readData.extractLsb' 16 16 = 0

/-- A read of ERR_CMD, at offset 0x010, returns it and has no side effect (R127). -/
def Obligations.ReadErrCmdReturnsIt : Prop :=
  encode .rdErrCmd = ⟨.read, 0x010, .word, false⟩ ∧
  ∀ s : State, exec .rdErrCmd s = .next { s with readData := s.errCmd }

/-- Reads of CMD, SLW and reserved offsets return 0; writes to STATUS, RESULT, ERR_CMD and reserved offsets are
ignored; nothing else happens (R128). -/
def Obligations.OtherAccessesDoNothing : Prop :=
  ∀ s : State,
    exec .rdCmd s = .next { s with readData := 0 } ∧
    (∀ i, exec (.rdWoLow i) s = .next { s with readData := 0 }) ∧
    (∀ i, exec (.rdWoHigh i) s = .next { s with readData := 0 }) ∧
    (∀ v, exec (.wrRoStatus v) s = .next s) ∧
    (∀ v, exec (.wrRoResult v) s = .next s) ∧
    (∀ v, exec (.wrRoErrCmd v) s = .next s) ∧
    (∀ offset, exec (.reserved .read offset) s = .next { s with readData := 0 }) ∧
    (∀ offset v, exec (.reserved (.write v) offset) s = .next s)

/-! ### The whole machine -/

/-- No instruction writes a byte outside the framebuffer region (20_memory.md R41). -/
def Obligations.BlockWritesOnlyItsRegion : Prop :=
  ∀ (i : Instr) (s t : State) (a : Nat), Memory.wf s.mem → exec i s = .next t →
    (a < s.fbBase.toNat ∨ s.fbBase.toNat + 240 * strideBytes s.params ≤ a) → t.mem.read a = s.mem.read a

/-- The block never reads framebuffer memory: with other contents, an instruction does the same to all else, and a byte
of memory is either left as it was or written with the same value (20_memory.md R44, R54). -/
def Obligations.FramebufferIsNeverRead : Prop :=
  ∀ (i : Instr) (s t : State) (other : Memory), Memory.wf s.mem → Memory.wf other → exec i s = .next t →
    ∃ m, exec i { s with mem := other } = .next { t with mem := m } ∧
      ∀ a, (t.mem.read a = s.mem.read a ∧ m.read a = other.read a) ∨ m.read a = t.mem.read a

/-- Each STATUS field, and FB_BASE, is written only by what R24 and R26 name. -/
def Obligations.StatusFieldsHaveTheirWriters : Prop :=
  ∀ (i : Instr) (s t : State), exec i s = .next t →
    (t.mode ≠ s.mode → ∃ m, commandOf i = .setMode 0 m) ∧
    (t.interlace ≠ s.interlace → ∃ en, commandOf i = .setInterlace 0 en) ∧
    (t.fullRedrawPending ≠ s.fullRedrawPending →
      (t.fullRedrawPending = true ∧ ∃ m, commandOf i = .setMode 0 m) ∨
      (t.fullRedrawPending = false ∧ commandOf i = .endFrame 0)) ∧
    (t.fbValid ≠ s.fbValid → t.fbValid = true ∧ ∃ v, i = .wrFbBase v) ∧
    (t.fbBase ≠ s.fbBase → ∃ v, i = .wrFbBase v) ∧
    (t.err ≠ s.err ∨ t.errCause ≠ s.errCause ∨ t.errCmd ≠ s.errCmd →
      s.err = false ∧ t.err = true ∧ (encode i).op = .write t.errCmd ∧ (encode i).offset = 0)

/-- The dither table and the other parameters are constants: no step changes them (00_scope.md R9, 10_state.md R29). -/
def Obligations.StepKeepsParameters : Prop :=
  ∀ s t : State, step s = .next t → t.params = s.params

/-- Every step keeps the invariant. -/
def Obligations.StepKeepsInvariant : Prop :=
  ∀ s t : State, Inv s → step s = .next t → Inv t

/-- The invariant holds after reset. -/
def Obligations.ResetMeetsInvariant : Prop := Inv State.reset

/-- Reset: the values R160 states, in the machine after power-on and after the reset input at any time; the reset input
leaves framebuffer memory and the table, and marks every SLW register as unspecified (70_reset_and_hazards.md R160). -/
def Obligations.ResetLeavesStatedValues : Prop :=
  (∀ t : State, (t = State.reset ∨ ∃ s rest, s.host = .reset :: rest ∧ step s = .next t) →
    t.mode = .natural ∧ t.interlace = false ∧ t.fullRedrawPending = true ∧ t.fbValid = false ∧ t.err = false ∧
    t.errCause = .none ∧ statusWord t = 0x00000008 ∧ resultWord t = 0 ∧ t.fbBase = 0 ∧ t.errCmd = 0 ∧
    (∀ i : Fin 40, t.slwFresh[i] = false) ∧ t.writer = ⟨0, 0, 0⟩) ∧
  (∀ (s : State) (rest : List HostEvent), s.host = .reset :: rest →
    ∃ t, step s = .next t ∧ t.mem = s.mem ∧ t.params = s.params)

/-- The host reads back a byte it has stored; its store changes no other byte, and neither access changes anything else
(10_state.md R32, 70_reset_and_hazards.md R170). That the host's accesses to memory are events of one byte, and that a
load leaves the byte, zero-extended, in `readData`, is the model's choice (notes/assumptions/22.md, 8.md). -/
def Obligations.HostStoreThenLoad : Prop :=
  ∀ (s : State) (a : BitVec 32) (b : Byte) (rest : List HostEvent), Memory.wf s.mem →
    s.host = .storeByte a b :: .loadByte a :: rest →
    ∃ t u, step s = .next t ∧ step t = .next u ∧
      t = { s with host := .loadByte a :: rest, mem := t.mem } ∧
      u = { t with host := rest, readData := b.setWidth 32 } ∧
      ∀ n, n ≠ a.toNat → t.mem.read n = s.mem.read n

/-- An access that another agent's reads of framebuffer words race does what the access alone does, and that agent gets,
for each word, the old word or the new one (20_memory.md R44, R51). That the choice is a free value, and where the reads
are kept, is the model's (notes/assumptions/17.md). -/
def Obligations.RacedReadsAreOldOrNew : Prop :=
  ∀ (s : State) (a : BusAccess) (watched : List (BitVec 32)) (rest : List HostEvent),
    s.host = .raced a watched :: rest →
    (∀ u, step { s with host := .access a :: rest } = .next u →
      ∃ t, step s = .next t ∧
        t = { u with raceReads := t.raceReads, freeCtr := u.freeCtr + 1 } ∧
        t.raceReads.length = watched.length ∧
        ∀ (n : Nat) (address : BitVec 32), watched[n]? = some address →
          t.raceReads[n]? = some (framebufferWord s address) ∨ t.raceReads[n]? = some (framebufferWord u address)) ∧
    (∀ r, step { s with host := .access a :: rest } = .refused r → step s = .refused r)
end

