-- ==== Sys2Proof/Laws/PerInstr.lean ====
section
/-! SUPPORT. Statements made per instruction: a well-formed instruction is encoded as an access the spec defines. -/

namespace Sys2Proof.Laws.AccessForm

open Sys2Proof

/-- A well-formed instruction stands for one aligned 32-bit access (20_memory.md R49, 30_encoding.md R67). -/
def Statement (i : Instr) : Prop :=
  i.wellFormed = true →
    (encode i).size = .word ∧ (encode i).burst = false ∧ (encode i).offset.toNat % 4 = 0

theorem renderLine (rsv : BitVec 20) (line : BitVec 8) : Statement (.renderLine rsv line) := fun _ => ⟨rfl, rfl, rfl⟩

theorem setMode (rsv : BitVec 26) (mode : Mode) : Statement (.setMode rsv mode) := fun _ => ⟨rfl, rfl, rfl⟩

theorem setInterlace (rsv : BitVec 27) (en : BitVec 1) : Statement (.setInterlace rsv en) := fun _ => ⟨rfl, rfl, rfl⟩

theorem endFrame (rsv : BitVec 28) : Statement (.endFrame rsv) := fun _ => ⟨rfl, rfl, rfl⟩

theorem wrCmd (w : Word) : Statement (.wrCmd w) := fun _ => ⟨rfl, rfl, rfl⟩

theorem rdCmd : Statement (.rdCmd) := fun _ => ⟨rfl, rfl, rfl⟩

theorem rdStatus : Statement (.rdStatus) := fun _ => ⟨rfl, rfl, rfl⟩

theorem rdResult : Statement (.rdResult) := fun _ => ⟨rfl, rfl, rfl⟩

theorem wrFbBase (v : Word) : Statement (.wrFbBase v) := fun _ => ⟨rfl, rfl, by simp [encode, writeAccess]⟩

theorem rdFbBase : Statement (.rdFbBase) := fun _ => ⟨rfl, rfl, rfl⟩

theorem rdErrCmd : Statement (.rdErrCmd) := fun _ => ⟨rfl, rfl, rfl⟩

theorem wrSlwLow (i : BitVec 5) (v : Word) : Statement (.wrSlwLow i v) := fun _ => ⟨rfl, rfl, by
  have h : ∀ j : BitVec 5, (2#2 ++ j ++ 0#2).toNat % 4 = 0 := by decide
  exact h i⟩

theorem wrSlwHigh (i : BitVec 3) (v : Word) : Statement (.wrSlwHigh i v) := fun _ => ⟨rfl, rfl, by
  have h : ∀ j : BitVec 3, (12#4 ++ j ++ 0#2).toNat % 4 = 0 := by decide
  exact h i⟩

theorem wrRoStatus (v : Word) : Statement (.wrRoStatus v) := fun _ => ⟨rfl, rfl, by simp [encode, writeAccess]⟩

theorem wrRoResult (v : Word) : Statement (.wrRoResult v) := fun _ => ⟨rfl, rfl, by simp [encode, writeAccess]⟩

theorem wrRoErrCmd (v : Word) : Statement (.wrRoErrCmd v) := fun _ => ⟨rfl, rfl, by simp [encode, writeAccess]⟩

theorem rdWoLow (i : BitVec 5) : Statement (.rdWoLow i) := fun _ => ⟨rfl, rfl, by
  have h : ∀ j : BitVec 5, (2#2 ++ j ++ 0#2).toNat % 4 = 0 := by decide
  exact h i⟩

theorem rdWoHigh (i : BitVec 3) : Statement (.rdWoHigh i) := fun _ => ⟨rfl, rfl, by
  have h : ∀ j : BitVec 3, (12#4 ++ j ++ 0#2).toNat % 4 = 0 := by decide
  exact h i⟩

theorem reserved (op : BusOp) (offset : BitVec 9) : Statement (.reserved op offset) := fun h => ⟨rfl, rfl, by
  simp only [Instr.wellFormed, reservedOffset, Bool.and_eq_true, beq_iff_eq] at h
  exact h.1⟩

end Sys2Proof.Laws.AccessForm
end

