-- ==== Sys2Proof/Laws/Decode.lean ====
section
/-! SUPPORT. The fields of the command words (30_encoding.md R60), and the decoding of a defined access. -/

namespace Sys2Proof

theorem Mode.ofBits_toBits (m : Mode) : Mode.ofBits m.toBits = m := by cases m <;> rfl

theorem Mode.toBits_ofBits (b : BitVec 2) : (Mode.ofBits b).toBits = b := by revert b; decide

/-- The high part of a concatenation. -/
theorem extract_high {n m : Nat} (x : BitVec n) (y : BitVec m) : (x ++ y).extractLsb' m n = x := by
  refine BitVec.eq_of_getLsbD_eq fun i hi => ?_
  simp [BitVec.getLsbD_append, hi]

/-- The low part of a concatenation. -/
theorem extract_low {n m : Nat} (x : BitVec n) (y : BitVec m) : (x ++ y).extractLsb' 0 m = y := by
  refine BitVec.eq_of_getLsbD_eq fun i hi => ?_
  simp [BitVec.getLsbD_append, hi]

/-- A field inside the high part of a concatenation. -/
theorem extract_in_high {n m len k : Nat} (x : BitVec n) (y : BitVec m) :
    (x ++ y).extractLsb' (m + k) len = x.extractLsb' k len := by
  refine BitVec.eq_of_getLsbD_eq fun i hi => ?_
  have h : ¬ m + k + i < m := by omega
  have h' : m + k + i - m = k + i := by omega
  simp [BitVec.getLsbD_append, hi, h, h']

/-- A value is its two parts, put together. -/
theorem append_extract {n m : Nat} (x : BitVec (n + m)) : x.extractLsb' m n ++ x.extractLsb' 0 m = x := by
  refine BitVec.eq_of_getLsbD_eq fun i hi => ?_
  simp

theorem decodeCommand_renderLineWord (rsv : BitVec 20) (line : BitVec 8) :
    decodeCommand (renderLineWord rsv line) = .renderLine rsv line := by
  have h1 : (renderLineWord rsv line).extractLsb' 28 4 = 1#4 := by
    exact (extract_in_high (k := 20) (len := 4) (0x1#4 ++ rsv) line).trans (extract_high (0x1#4) rsv)
  have h2 : (renderLineWord rsv line).extractLsb' 8 20 = rsv := by
    exact (extract_in_high (k := 0) (len := 20) (0x1#4 ++ rsv) line).trans (extract_low (0x1#4) rsv)
  have h3 : (renderLineWord rsv line).extractLsb' 0 8 = line := extract_low (0x1#4 ++ rsv) line
  simp [decodeCommand, h1, h2, h3]

theorem decodeCommand_setModeWord (rsv : BitVec 26) (mode : Mode) :
    decodeCommand (setModeWord rsv mode) = .setMode rsv mode := by
  have h1 : (setModeWord rsv mode).extractLsb' 28 4 = 2#4 := by
    exact (extract_in_high (k := 26) (len := 4) (0x2#4 ++ rsv) mode.toBits).trans (extract_high (0x2#4) rsv)
  have h2 : (setModeWord rsv mode).extractLsb' 2 26 = rsv := by
    exact (extract_in_high (k := 0) (len := 26) (0x2#4 ++ rsv) mode.toBits).trans (extract_low (0x2#4) rsv)
  have h3 : (setModeWord rsv mode).extractLsb' 0 2 = mode.toBits := extract_low (0x2#4 ++ rsv) mode.toBits
  simp [decodeCommand, h1, h2, h3, Mode.ofBits_toBits]

theorem decodeCommand_setInterlaceWord (rsv : BitVec 27) (en : BitVec 1) :
    decodeCommand (setInterlaceWord rsv en) = .setInterlace rsv en := by
  have h1 : (setInterlaceWord rsv en).extractLsb' 28 4 = 3#4 := by
    exact (extract_in_high (k := 27) (len := 4) (0x3#4 ++ rsv) en).trans (extract_high (0x3#4) rsv)
  have h2 : (setInterlaceWord rsv en).extractLsb' 1 27 = rsv := by
    exact (extract_in_high (k := 0) (len := 27) (0x3#4 ++ rsv) en).trans (extract_low (0x3#4) rsv)
  have h3 : (setInterlaceWord rsv en).extractLsb' 0 1 = en := extract_low (0x3#4 ++ rsv) en
  simp [decodeCommand, h1, h2, h3]

theorem decodeCommand_endFrameWord (rsv : BitVec 28) : decodeCommand (endFrameWord rsv) = .endFrame rsv := by
  have h1 : (endFrameWord rsv).extractLsb' 28 4 = 4#4 := extract_high (0x4#4) rsv
  have h2 : (endFrameWord rsv).extractLsb' 0 28 = rsv := extract_low (0x4#4) rsv
  simp [decodeCommand, h1, h2]

/-- A word of a reserved OP is no command (R63). -/
theorem decodeCommand_reserved {w : Word} (h : reservedOp w = true) : decodeCommand w = .wrCmd w := by
  have h' : ∀ op : BitVec 4, (op == 0 || decide (5 ≤ op.toNat)) = true → op ≠ 1 ∧ op ≠ 2 ∧ op ≠ 3 ∧ op ≠ 4 := by decide
  obtain ⟨h1, h2, h3, h4⟩ := h' _ h
  unfold decodeCommand
  simp only [if_neg h1, if_neg h2, if_neg h3, if_neg h4]

/-- What OP decides (R62, R66). -/
theorem reservedOp_eq (w : Word) :
    reservedOp w = !(w.extractLsb' 28 4 == 1 || w.extractLsb' 28 4 == 2 || w.extractLsb' 28 4 == 3 ||
      w.extractLsb' 28 4 == 4) := by
  have h : ∀ op : BitVec 4, (op == 0 || decide (5 ≤ op.toNat)) = !(op == 1 || op == 2 || op == 3 || op == 4) := by decide
  exact h _

/-- A defined access decodes by its key alone (R67). -/
theorem decode_word {a : BusAccess} (hs : a.size = .word) (hb : a.burst = false)
    (ho : a.offset.extractLsb' 0 2 = 0) :
    decode a = match a.op with
      | .read => .ok (decodeRead a.offset)
      | .write v => .ok (decodeWrite a.offset v) := by
  cases h : a.op <;> simp [decode, hs, hb, ho, h]

/-- A decoded access is a defined one (R49, R151). -/
theorem decode_eq_ok {a : BusAccess} {i : Instr} (h : decode a = .ok i) :
    a.size = .word ∧ a.burst = false ∧ a.offset.extractLsb' 0 2 = 0 := by
  unfold decode at h
  split at h
  · cases h
  · rename_i hb
    split at h
    · cases h
    · cases h
    · cases h
    · split at h
      · cases h
      · rename_i hs ho
        exact ⟨hs, by simpa using hb, by simpa using ho⟩

end Sys2Proof
end

