-- ==== Sys2Proof/Laws/Memory.lean ====
section
/-! SUPPORT. Memory: what a read finds after a store, and that a store keeps the canonical form. -/

namespace Sys2Proof.Machine

/-- Addresses strictly rise. -/
abbrev Rising (cells : List Host.Cell) : Prop := cells.Pairwise (fun c d => c.1 < d.1)

@[simp] theorem Memory.read_nil (a : Nat) : Memory.read [] a = none := rfl

theorem Memory.read_cons (c : Host.Cell) (m : Memory) (a : Nat) :
    Memory.read (c :: m) a = if a = c.1 then some c.2 else Memory.read m a := by
  obtain ⟨b, x⟩ := c
  by_cases h : a = b
  · simp [Memory.read, h]
  · have hb : (a == b) = false := by simpa using h
    simp [Memory.read, List.lookup_cons, h, hb]

theorem Memory.read_append (m n : Memory) (a : Nat) :
    Memory.read (m ++ n) a = (Memory.read m a).or (Memory.read n a) := by
  induction m with
  | nil => simp
  | cons c m ih => by_cases h : a = c.1 <;> simp [Memory.read_cons, h, ih]

theorem Memory.read_eq_none {m : Memory} {a : Nat} (h : ∀ c ∈ m, c.1 ≠ a) : Memory.read m a = none := by
  induction m with
  | nil => rfl
  | cons c m ih =>
    rw [Memory.read_cons, if_neg (fun e => h c (by simp) e.symm)]
    exact ih fun d hd => h d (by simp [hd])

theorem Memory.read_eq_some {m : Memory} (hm : Rising m) {a : Nat} {b : Byte} (h : (a, b) ∈ m) :
    Memory.read m a = some b := by
  induction m with
  | nil => simp at h
  | cons c m ih =>
    obtain ⟨h1, h2⟩ := List.pairwise_cons.mp hm
    rw [Memory.read_cons]
    rcases List.mem_cons.mp h with rfl | hin
    · simp
    · have hlt := h1 _ hin
      have hne : a ≠ c.1 := by simp only at hlt; omega
      rw [if_neg hne]
      exact ih h2 hin

/-- Below an address, the front part of memory reads as memory does; elsewhere it holds nothing. -/
theorem Memory.read_takeWhile {m : Memory} (hm : Rising m) (b a : Nat) :
    Memory.read (m.takeWhile (fun d => d.1 < b)) a = if a < b then Memory.read m a else none := by
  induction m with
  | nil => simp
  | cons c m ih =>
    obtain ⟨h1, h2⟩ := List.pairwise_cons.mp hm
    by_cases hc : c.1 < b
    · rw [List.takeWhile_cons_of_pos (by simpa using hc), Memory.read_cons, ih h2, Memory.read_cons]
      split <;> split <;> simp_all
    · rw [List.takeWhile_cons_of_neg (by simpa using hc)]
      split
      · refine (Memory.read_eq_none fun d hd => ?_).symm
        rcases List.mem_cons.mp hd with rfl | hd
        · omega
        · have := h1 d hd
          omega
      · rfl

/-- Above an address, the back part of memory reads as memory does; elsewhere it holds nothing. -/
theorem Memory.read_dropWhile {m : Memory} (hm : Rising m) (b a : Nat) :
    Memory.read (m.dropWhile (fun d => d.1 ≤ b)) a = if b < a then Memory.read m a else none := by
  induction m with
  | nil => simp
  | cons c m ih =>
    obtain ⟨h1, h2⟩ := List.pairwise_cons.mp hm
    by_cases hc : c.1 ≤ b
    · rw [List.dropWhile_cons_of_pos (by simpa using hc), ih h2, Memory.read_cons]
      split
      · rw [if_neg (by omega)]
      · rfl
    · rw [List.dropWhile_cons_of_neg (by simpa using hc)]
      split
      · rfl
      · apply Memory.read_eq_none
        intro d hd
        rcases List.mem_cons.mp hd with rfl | hd
        · omega
        · have := h1 d hd
          omega

/-- A stored byte reads back, and every other address reads as before. -/
theorem Memory.read_store {m : Memory} (hm : Rising m) {cells : List Host.Cell} (hc : Rising cells) (a : Nat) :
    (m.store cells).read a = (Memory.read cells a).or (m.read a) := by
  induction cells generalizing m with
  | nil => simp [Memory.store]
  | cons c cs ih =>
    obtain ⟨h1, h2⟩ := List.pairwise_cons.mp hc
    rw [Memory.store, Memory.read_append, Memory.read_cons, Memory.read_cons, Memory.read_takeWhile hm,
      ih (hm.sublist (List.dropWhile_sublist _)) h2, Memory.read_dropWhile hm]
    rcases Nat.lt_trichotomy a c.1 with h | h | h
    · rw [if_pos h, if_neg (by omega), if_neg (by omega), if_neg (by omega),
        Memory.read_eq_none (m := cs) (fun d hd => by have := h1 d hd; omega)]
      simp
    · simp [h]
    · rw [if_neg (by omega), if_neg (by omega), if_pos h, if_neg (by omega)]
      rfl

theorem Memory.store_mem {m : Memory} {cells : List Host.Cell} {d : Host.Cell} (h : d ∈ m.store cells) :
    d ∈ m ∨ d ∈ cells := by
  induction cells generalizing m with
  | nil => exact .inl h
  | cons c cs ih =>
    rw [Memory.store, List.mem_append, List.mem_cons] at h
    rcases h with h | rfl | h
    · exact .inl (List.takeWhile_subset _ h)
    · exact .inr (by simp)
    · rcases ih h with h | h
      · exact .inl (List.dropWhile_subset _ h)
      · exact .inr (by simp [h])

theorem Memory.store_rising {m : Memory} (hm : Rising m) {cells : List Host.Cell} (hc : Rising cells) :
    Rising (m.store cells) := by
  induction cells generalizing m with
  | nil => exact hm
  | cons c cs ih =>
    obtain ⟨h1, h2⟩ := List.pairwise_cons.mp hc
    have hd := hm.sublist (List.dropWhile_sublist (fun d : Host.Cell => decide (d.1 ≤ c.1)))
    have above : ∀ d ∈ Memory.store (m.dropWhile (fun d => d.1 ≤ c.1)) cs, c.1 < d.1 := by
      intro d hd'
      rcases Memory.store_mem hd' with h | h
      · by_contra hle
        have hr := Memory.read_eq_some hd (a := d.1) (b := d.2) h
        rw [Memory.read_dropWhile hm, if_neg hle] at hr
        simp at hr
      · exact h1 d h
    have below : ∀ d ∈ m.takeWhile (fun d => d.1 < c.1), d.1 < c.1 := fun d hd' => by
      simpa using List.mem_takeWhile_imp hd'
    rw [Memory.store]
    refine List.pairwise_append.mpr ⟨hm.sublist (List.takeWhile_sublist _),
      List.pairwise_cons.mpr ⟨above, ih hd h2⟩, fun x hx y hy => ?_⟩
    have hxc := below x hx
    rcases List.mem_cons.mp hy with rfl | hy
    · exact hxc
    · exact Nat.lt_trans hxc (above y hy)

/-- A store of rising cells inside the address space keeps the canonical form. -/
theorem Memory.store_wf {m : Memory} (hm : Memory.wf m) {cells : List Host.Cell} (hc : Memory.wf cells) :
    Memory.wf (m.store cells) :=
  ⟨Memory.store_rising hm.1 hc.1, fun d hd => (Memory.store_mem hd).elim (hm.2 d) (hc.2 d)⟩

end Sys2Proof.Machine
end

