-- ==== Sys2Proof/Laws/State.lean ====
section
/-! SUPPORT. What each named update of the state does to each field: true by unfolding, once. -/

namespace Sys2Proof.Machine

section SelectMode
variable (m : Mode) (s : State)
@[simp] theorem selectMode_params : (selectMode m s).params = s.params := rfl
@[simp] theorem selectMode_mode : (selectMode m s).mode = m := rfl
@[simp] theorem selectMode_interlace : (selectMode m s).interlace = s.interlace := rfl
@[simp] theorem selectMode_fullRedrawPending : (selectMode m s).fullRedrawPending = s.fullRedrawPending := rfl
@[simp] theorem selectMode_fbValid : (selectMode m s).fbValid = s.fbValid := rfl
@[simp] theorem selectMode_err : (selectMode m s).err = s.err := rfl
@[simp] theorem selectMode_errCause : (selectMode m s).errCause = s.errCause := rfl
@[simp] theorem selectMode_firstRow : (selectMode m s).firstRow = s.firstRow := rfl
@[simp] theorem selectMode_rowCount : (selectMode m s).rowCount = s.rowCount := rfl
@[simp] theorem selectMode_fbBase : (selectMode m s).fbBase = s.fbBase := rfl
@[simp] theorem selectMode_errCmd : (selectMode m s).errCmd = s.errCmd := rfl
@[simp] theorem selectMode_slw : (selectMode m s).slw = s.slw := rfl
@[simp] theorem selectMode_slwFresh : (selectMode m s).slwFresh = s.slwFresh := rfl
@[simp] theorem selectMode_writer : (selectMode m s).writer = s.writer := rfl
@[simp] theorem selectMode_mem : (selectMode m s).mem = s.mem := rfl
@[simp] theorem selectMode_host : (selectMode m s).host = s.host := rfl
@[simp] theorem selectMode_readData : (selectMode m s).readData = s.readData := rfl
@[simp] theorem selectMode_raceReads : (selectMode m s).raceReads = s.raceReads := rfl
@[simp] theorem selectMode_scanlineFault : (selectMode m s).scanlineFault = s.scanlineFault := rfl
@[simp] theorem selectMode_freeCtr : (selectMode m s).freeCtr = s.freeCtr := rfl
end SelectMode

section SetInterlaceFlag
variable (b : Bool) (s : State)
@[simp] theorem setInterlaceFlag_params : (setInterlaceFlag b s).params = s.params := rfl
@[simp] theorem setInterlaceFlag_mode : (setInterlaceFlag b s).mode = s.mode := rfl
@[simp] theorem setInterlaceFlag_interlace : (setInterlaceFlag b s).interlace = b := rfl
@[simp] theorem setInterlaceFlag_fullRedrawPending : (setInterlaceFlag b s).fullRedrawPending = s.fullRedrawPending := rfl
@[simp] theorem setInterlaceFlag_fbValid : (setInterlaceFlag b s).fbValid = s.fbValid := rfl
@[simp] theorem setInterlaceFlag_err : (setInterlaceFlag b s).err = s.err := rfl
@[simp] theorem setInterlaceFlag_errCause : (setInterlaceFlag b s).errCause = s.errCause := rfl
@[simp] theorem setInterlaceFlag_firstRow : (setInterlaceFlag b s).firstRow = s.firstRow := rfl
@[simp] theorem setInterlaceFlag_rowCount : (setInterlaceFlag b s).rowCount = s.rowCount := rfl
@[simp] theorem setInterlaceFlag_fbBase : (setInterlaceFlag b s).fbBase = s.fbBase := rfl
@[simp] theorem setInterlaceFlag_errCmd : (setInterlaceFlag b s).errCmd = s.errCmd := rfl
@[simp] theorem setInterlaceFlag_slw : (setInterlaceFlag b s).slw = s.slw := rfl
@[simp] theorem setInterlaceFlag_slwFresh : (setInterlaceFlag b s).slwFresh = s.slwFresh := rfl
@[simp] theorem setInterlaceFlag_writer : (setInterlaceFlag b s).writer = s.writer := rfl
@[simp] theorem setInterlaceFlag_mem : (setInterlaceFlag b s).mem = s.mem := rfl
@[simp] theorem setInterlaceFlag_host : (setInterlaceFlag b s).host = s.host := rfl
@[simp] theorem setInterlaceFlag_readData : (setInterlaceFlag b s).readData = s.readData := rfl
@[simp] theorem setInterlaceFlag_raceReads : (setInterlaceFlag b s).raceReads = s.raceReads := rfl
@[simp] theorem setInterlaceFlag_scanlineFault : (setInterlaceFlag b s).scanlineFault = s.scanlineFault := rfl
@[simp] theorem setInterlaceFlag_freeCtr : (setInterlaceFlag b s).freeCtr = s.freeCtr := rfl
end SetInterlaceFlag

section SetRedrawPending
variable (b : Bool) (s : State)
@[simp] theorem setRedrawPending_params : (setRedrawPending b s).params = s.params := rfl
@[simp] theorem setRedrawPending_mode : (setRedrawPending b s).mode = s.mode := rfl
@[simp] theorem setRedrawPending_interlace : (setRedrawPending b s).interlace = s.interlace := rfl
@[simp] theorem setRedrawPending_fullRedrawPending : (setRedrawPending b s).fullRedrawPending = b := rfl
@[simp] theorem setRedrawPending_fbValid : (setRedrawPending b s).fbValid = s.fbValid := rfl
@[simp] theorem setRedrawPending_err : (setRedrawPending b s).err = s.err := rfl
@[simp] theorem setRedrawPending_errCause : (setRedrawPending b s).errCause = s.errCause := rfl
@[simp] theorem setRedrawPending_firstRow : (setRedrawPending b s).firstRow = s.firstRow := rfl
@[simp] theorem setRedrawPending_rowCount : (setRedrawPending b s).rowCount = s.rowCount := rfl
@[simp] theorem setRedrawPending_fbBase : (setRedrawPending b s).fbBase = s.fbBase := rfl
@[simp] theorem setRedrawPending_errCmd : (setRedrawPending b s).errCmd = s.errCmd := rfl
@[simp] theorem setRedrawPending_slw : (setRedrawPending b s).slw = s.slw := rfl
@[simp] theorem setRedrawPending_slwFresh : (setRedrawPending b s).slwFresh = s.slwFresh := rfl
@[simp] theorem setRedrawPending_writer : (setRedrawPending b s).writer = s.writer := rfl
@[simp] theorem setRedrawPending_mem : (setRedrawPending b s).mem = s.mem := rfl
@[simp] theorem setRedrawPending_host : (setRedrawPending b s).host = s.host := rfl
@[simp] theorem setRedrawPending_readData : (setRedrawPending b s).readData = s.readData := rfl
@[simp] theorem setRedrawPending_raceReads : (setRedrawPending b s).raceReads = s.raceReads := rfl
@[simp] theorem setRedrawPending_scanlineFault : (setRedrawPending b s).scanlineFault = s.scanlineFault := rfl
@[simp] theorem setRedrawPending_freeCtr : (setRedrawPending b s).freeCtr = s.freeCtr := rfl
end SetRedrawPending

section SetReport
variable (first count : Nat) (s : State)
@[simp] theorem setReport_params : (setReport first count s).params = s.params := rfl
@[simp] theorem setReport_mode : (setReport first count s).mode = s.mode := rfl
@[simp] theorem setReport_interlace : (setReport first count s).interlace = s.interlace := rfl
@[simp] theorem setReport_fullRedrawPending : (setReport first count s).fullRedrawPending = s.fullRedrawPending := rfl
@[simp] theorem setReport_fbValid : (setReport first count s).fbValid = s.fbValid := rfl
@[simp] theorem setReport_err : (setReport first count s).err = s.err := rfl
@[simp] theorem setReport_errCause : (setReport first count s).errCause = s.errCause := rfl
@[simp] theorem setReport_firstRow : (setReport first count s).firstRow = BitVec.ofNat 8 first := rfl
@[simp] theorem setReport_rowCount : (setReport first count s).rowCount = BitVec.ofNat 8 count := rfl
@[simp] theorem setReport_fbBase : (setReport first count s).fbBase = s.fbBase := rfl
@[simp] theorem setReport_errCmd : (setReport first count s).errCmd = s.errCmd := rfl
@[simp] theorem setReport_slw : (setReport first count s).slw = s.slw := rfl
@[simp] theorem setReport_slwFresh : (setReport first count s).slwFresh = s.slwFresh := rfl
@[simp] theorem setReport_writer : (setReport first count s).writer = s.writer := rfl
@[simp] theorem setReport_mem : (setReport first count s).mem = s.mem := rfl
@[simp] theorem setReport_host : (setReport first count s).host = s.host := rfl
@[simp] theorem setReport_readData : (setReport first count s).readData = s.readData := rfl
@[simp] theorem setReport_raceReads : (setReport first count s).raceReads = s.raceReads := rfl
@[simp] theorem setReport_scanlineFault : (setReport first count s).scanlineFault = s.scanlineFault := rfl
@[simp] theorem setReport_freeCtr : (setReport first count s).freeCtr = s.freeCtr := rfl
end SetReport

section ReportRows
variable (rows : List Nat) (s : State)
@[simp] theorem reportRows_params : (reportRows rows s).params = s.params := rfl
@[simp] theorem reportRows_mode : (reportRows rows s).mode = s.mode := rfl
@[simp] theorem reportRows_interlace : (reportRows rows s).interlace = s.interlace := rfl
@[simp] theorem reportRows_fullRedrawPending : (reportRows rows s).fullRedrawPending = s.fullRedrawPending := rfl
@[simp] theorem reportRows_fbValid : (reportRows rows s).fbValid = s.fbValid := rfl
@[simp] theorem reportRows_err : (reportRows rows s).err = s.err := rfl
@[simp] theorem reportRows_errCause : (reportRows rows s).errCause = s.errCause := rfl
@[simp] theorem reportRows_firstRow : (reportRows rows s).firstRow = BitVec.ofNat 8 (rows.headD 0) := rfl
@[simp] theorem reportRows_rowCount : (reportRows rows s).rowCount = BitVec.ofNat 8 rows.length := rfl
@[simp] theorem reportRows_fbBase : (reportRows rows s).fbBase = s.fbBase := rfl
@[simp] theorem reportRows_errCmd : (reportRows rows s).errCmd = s.errCmd := rfl
@[simp] theorem reportRows_slw : (reportRows rows s).slw = s.slw := rfl
@[simp] theorem reportRows_slwFresh : (reportRows rows s).slwFresh = s.slwFresh := rfl
@[simp] theorem reportRows_writer : (reportRows rows s).writer = s.writer := rfl
@[simp] theorem reportRows_mem : (reportRows rows s).mem = s.mem := rfl
@[simp] theorem reportRows_host : (reportRows rows s).host = s.host := rfl
@[simp] theorem reportRows_readData : (reportRows rows s).readData = s.readData := rfl
@[simp] theorem reportRows_raceReads : (reportRows rows s).raceReads = s.raceReads := rfl
@[simp] theorem reportRows_scanlineFault : (reportRows rows s).scanlineFault = s.scanlineFault := rfl
@[simp] theorem reportRows_freeCtr : (reportRows rows s).freeCtr = s.freeCtr := rfl
end ReportRows

section ConsumeScanline
variable (s : State)
@[simp] theorem consumeScanline_params : (consumeScanline s).params = s.params := rfl
@[simp] theorem consumeScanline_mode : (consumeScanline s).mode = s.mode := rfl
@[simp] theorem consumeScanline_interlace : (consumeScanline s).interlace = s.interlace := rfl
@[simp] theorem consumeScanline_fullRedrawPending : (consumeScanline s).fullRedrawPending = s.fullRedrawPending := rfl
@[simp] theorem consumeScanline_fbValid : (consumeScanline s).fbValid = s.fbValid := rfl
@[simp] theorem consumeScanline_err : (consumeScanline s).err = s.err := rfl
@[simp] theorem consumeScanline_errCause : (consumeScanline s).errCause = s.errCause := rfl
@[simp] theorem consumeScanline_firstRow : (consumeScanline s).firstRow = s.firstRow := rfl
@[simp] theorem consumeScanline_rowCount : (consumeScanline s).rowCount = s.rowCount := rfl
@[simp] theorem consumeScanline_fbBase : (consumeScanline s).fbBase = s.fbBase := rfl
@[simp] theorem consumeScanline_errCmd : (consumeScanline s).errCmd = s.errCmd := rfl
@[simp] theorem consumeScanline_slw : (consumeScanline s).slw = s.slw := rfl
@[simp] theorem consumeScanline_slwFresh : (consumeScanline s).slwFresh = Vector.replicate 40 false := rfl
@[simp] theorem consumeScanline_writer : (consumeScanline s).writer = s.writer := rfl
@[simp] theorem consumeScanline_mem : (consumeScanline s).mem = s.mem := rfl
@[simp] theorem consumeScanline_host : (consumeScanline s).host = s.host := rfl
@[simp] theorem consumeScanline_readData : (consumeScanline s).readData = s.readData := rfl
@[simp] theorem consumeScanline_raceReads : (consumeScanline s).raceReads = s.raceReads := rfl
@[simp] theorem consumeScanline_scanlineFault : (consumeScanline s).scanlineFault = s.scanlineFault := rfl
@[simp] theorem consumeScanline_freeCtr : (consumeScanline s).freeCtr = s.freeCtr + 1 := rfl
end ConsumeScanline

section RecordScanlineFault
variable (stale : Bool) (s : State)
@[simp] theorem recordScanlineFault_params : (recordScanlineFault stale s).params = s.params := rfl
@[simp] theorem recordScanlineFault_mode : (recordScanlineFault stale s).mode = s.mode := rfl
@[simp] theorem recordScanlineFault_interlace : (recordScanlineFault stale s).interlace = s.interlace := rfl
@[simp] theorem recordScanlineFault_fullRedrawPending : (recordScanlineFault stale s).fullRedrawPending = s.fullRedrawPending := rfl
@[simp] theorem recordScanlineFault_fbValid : (recordScanlineFault stale s).fbValid = s.fbValid := rfl
@[simp] theorem recordScanlineFault_err : (recordScanlineFault stale s).err = s.err := rfl
@[simp] theorem recordScanlineFault_errCause : (recordScanlineFault stale s).errCause = s.errCause := rfl
@[simp] theorem recordScanlineFault_firstRow : (recordScanlineFault stale s).firstRow = s.firstRow := rfl
@[simp] theorem recordScanlineFault_rowCount : (recordScanlineFault stale s).rowCount = s.rowCount := rfl
@[simp] theorem recordScanlineFault_fbBase : (recordScanlineFault stale s).fbBase = s.fbBase := rfl
@[simp] theorem recordScanlineFault_errCmd : (recordScanlineFault stale s).errCmd = s.errCmd := rfl
@[simp] theorem recordScanlineFault_slw : (recordScanlineFault stale s).slw = s.slw := rfl
@[simp] theorem recordScanlineFault_slwFresh : (recordScanlineFault stale s).slwFresh = s.slwFresh := rfl
@[simp] theorem recordScanlineFault_writer : (recordScanlineFault stale s).writer = s.writer := rfl
@[simp] theorem recordScanlineFault_mem : (recordScanlineFault stale s).mem = s.mem := rfl
@[simp] theorem recordScanlineFault_host : (recordScanlineFault stale s).host = s.host := rfl
@[simp] theorem recordScanlineFault_readData : (recordScanlineFault stale s).readData = s.readData := rfl
@[simp] theorem recordScanlineFault_raceReads : (recordScanlineFault stale s).raceReads = s.raceReads := rfl
@[simp] theorem recordScanlineFault_scanlineFault :
    (recordScanlineFault stale s).scanlineFault = (s.scanlineFault || stale) := rfl
@[simp] theorem recordScanlineFault_freeCtr : (recordScanlineFault stale s).freeCtr = s.freeCtr := rfl
end RecordScanlineFault

section ReturnWord
variable (v : Word) (s : State)
@[simp] theorem returnWord_params : (returnWord v s).params = s.params := rfl
@[simp] theorem returnWord_mode : (returnWord v s).mode = s.mode := rfl
@[simp] theorem returnWord_interlace : (returnWord v s).interlace = s.interlace := rfl
@[simp] theorem returnWord_fullRedrawPending : (returnWord v s).fullRedrawPending = s.fullRedrawPending := rfl
@[simp] theorem returnWord_fbValid : (returnWord v s).fbValid = s.fbValid := rfl
@[simp] theorem returnWord_err : (returnWord v s).err = s.err := rfl
@[simp] theorem returnWord_errCause : (returnWord v s).errCause = s.errCause := rfl
@[simp] theorem returnWord_firstRow : (returnWord v s).firstRow = s.firstRow := rfl
@[simp] theorem returnWord_rowCount : (returnWord v s).rowCount = s.rowCount := rfl
@[simp] theorem returnWord_fbBase : (returnWord v s).fbBase = s.fbBase := rfl
@[simp] theorem returnWord_errCmd : (returnWord v s).errCmd = s.errCmd := rfl
@[simp] theorem returnWord_slw : (returnWord v s).slw = s.slw := rfl
@[simp] theorem returnWord_slwFresh : (returnWord v s).slwFresh = s.slwFresh := rfl
@[simp] theorem returnWord_writer : (returnWord v s).writer = s.writer := rfl
@[simp] theorem returnWord_mem : (returnWord v s).mem = s.mem := rfl
@[simp] theorem returnWord_host : (returnWord v s).host = s.host := rfl
@[simp] theorem returnWord_readData : (returnWord v s).readData = v := rfl
@[simp] theorem returnWord_raceReads : (returnWord v s).raceReads = s.raceReads := rfl
@[simp] theorem returnWord_scanlineFault : (returnWord v s).scanlineFault = s.scanlineFault := rfl
@[simp] theorem returnWord_freeCtr : (returnWord v s).freeCtr = s.freeCtr := rfl
end ReturnWord

section WriteFbBase
variable (v : Word) (s : State)
@[simp] theorem writeFbBase_params : (writeFbBase v s).params = s.params := rfl
@[simp] theorem writeFbBase_mode : (writeFbBase v s).mode = s.mode := rfl
@[simp] theorem writeFbBase_interlace : (writeFbBase v s).interlace = s.interlace := rfl
@[simp] theorem writeFbBase_fullRedrawPending : (writeFbBase v s).fullRedrawPending = s.fullRedrawPending := rfl
@[simp] theorem writeFbBase_fbValid : (writeFbBase v s).fbValid = true := rfl
@[simp] theorem writeFbBase_err : (writeFbBase v s).err = s.err := rfl
@[simp] theorem writeFbBase_errCause : (writeFbBase v s).errCause = s.errCause := rfl
@[simp] theorem writeFbBase_firstRow : (writeFbBase v s).firstRow = s.firstRow := rfl
@[simp] theorem writeFbBase_rowCount : (writeFbBase v s).rowCount = s.rowCount := rfl
@[simp] theorem writeFbBase_fbBase : (writeFbBase v s).fbBase = v &&& ~~~(BitVec.ofNat 32 (wordBytes s.params - 1)) := rfl
@[simp] theorem writeFbBase_errCmd : (writeFbBase v s).errCmd = s.errCmd := rfl
@[simp] theorem writeFbBase_slw : (writeFbBase v s).slw = s.slw := rfl
@[simp] theorem writeFbBase_slwFresh : (writeFbBase v s).slwFresh = s.slwFresh := rfl
@[simp] theorem writeFbBase_writer : (writeFbBase v s).writer = s.writer := rfl
@[simp] theorem writeFbBase_mem : (writeFbBase v s).mem = s.mem := rfl
@[simp] theorem writeFbBase_host : (writeFbBase v s).host = s.host := rfl
@[simp] theorem writeFbBase_readData : (writeFbBase v s).readData = s.readData := rfl
@[simp] theorem writeFbBase_raceReads : (writeFbBase v s).raceReads = s.raceReads := rfl
@[simp] theorem writeFbBase_scanlineFault : (writeFbBase v s).scanlineFault = s.scanlineFault := rfl
@[simp] theorem writeFbBase_freeCtr : (writeFbBase v s).freeCtr = s.freeCtr := rfl
end WriteFbBase

section WriteSlw
variable (i : Fin 40) (v : Word) (s : State)
@[simp] theorem writeSlw_params : (writeSlw i v s).params = s.params := rfl
@[simp] theorem writeSlw_mode : (writeSlw i v s).mode = s.mode := rfl
@[simp] theorem writeSlw_interlace : (writeSlw i v s).interlace = s.interlace := rfl
@[simp] theorem writeSlw_fullRedrawPending : (writeSlw i v s).fullRedrawPending = s.fullRedrawPending := rfl
@[simp] theorem writeSlw_fbValid : (writeSlw i v s).fbValid = s.fbValid := rfl
@[simp] theorem writeSlw_err : (writeSlw i v s).err = s.err := rfl
@[simp] theorem writeSlw_errCause : (writeSlw i v s).errCause = s.errCause := rfl
@[simp] theorem writeSlw_firstRow : (writeSlw i v s).firstRow = s.firstRow := rfl
@[simp] theorem writeSlw_rowCount : (writeSlw i v s).rowCount = s.rowCount := rfl
@[simp] theorem writeSlw_fbBase : (writeSlw i v s).fbBase = s.fbBase := rfl
@[simp] theorem writeSlw_errCmd : (writeSlw i v s).errCmd = s.errCmd := rfl
@[simp] theorem writeSlw_slw : (writeSlw i v s).slw = s.slw.set i v := rfl
@[simp] theorem writeSlw_slwFresh : (writeSlw i v s).slwFresh = s.slwFresh.set i true := rfl
@[simp] theorem writeSlw_writer : (writeSlw i v s).writer = s.writer := rfl
@[simp] theorem writeSlw_mem : (writeSlw i v s).mem = s.mem := rfl
@[simp] theorem writeSlw_host : (writeSlw i v s).host = s.host := rfl
@[simp] theorem writeSlw_readData : (writeSlw i v s).readData = s.readData := rfl
@[simp] theorem writeSlw_raceReads : (writeSlw i v s).raceReads = s.raceReads := rfl
@[simp] theorem writeSlw_scanlineFault : (writeSlw i v s).scanlineFault = s.scanlineFault := rfl
@[simp] theorem writeSlw_freeCtr : (writeSlw i v s).freeCtr = s.freeCtr := rfl
end WriteSlw

section DrawRows
variable (s : State) (bit : Nat → Nat → Bool) (rows : List Nat)
@[simp] theorem drawRows_params : (drawRows s bit rows).params = s.params := rfl
@[simp] theorem drawRows_mode : (drawRows s bit rows).mode = s.mode := rfl
@[simp] theorem drawRows_interlace : (drawRows s bit rows).interlace = s.interlace := rfl
@[simp] theorem drawRows_fullRedrawPending : (drawRows s bit rows).fullRedrawPending = s.fullRedrawPending := rfl
@[simp] theorem drawRows_fbValid : (drawRows s bit rows).fbValid = s.fbValid := rfl
@[simp] theorem drawRows_err : (drawRows s bit rows).err = s.err := rfl
@[simp] theorem drawRows_errCause : (drawRows s bit rows).errCause = s.errCause := rfl
@[simp] theorem drawRows_firstRow : (drawRows s bit rows).firstRow = s.firstRow := rfl
@[simp] theorem drawRows_rowCount : (drawRows s bit rows).rowCount = s.rowCount := rfl
@[simp] theorem drawRows_fbBase : (drawRows s bit rows).fbBase = s.fbBase := rfl
@[simp] theorem drawRows_errCmd : (drawRows s bit rows).errCmd = s.errCmd := rfl
@[simp] theorem drawRows_slw : (drawRows s bit rows).slw = s.slw := rfl
@[simp] theorem drawRows_slwFresh : (drawRows s bit rows).slwFresh = s.slwFresh := rfl
@[simp] theorem drawRows_writer : (drawRows s bit rows).writer = (writeRows s bit rows s.writer).1 := rfl
@[simp] theorem drawRows_mem : (drawRows s bit rows).mem = s.mem.store (writeRows s bit rows s.writer).2 := rfl
@[simp] theorem drawRows_host : (drawRows s bit rows).host = s.host := rfl
@[simp] theorem drawRows_readData : (drawRows s bit rows).readData = s.readData := rfl
@[simp] theorem drawRows_raceReads : (drawRows s bit rows).raceReads = s.raceReads := rfl
@[simp] theorem drawRows_scanlineFault : (drawRows s bit rows).scanlineFault = s.scanlineFault := rfl
@[simp] theorem drawRows_freeCtr : (drawRows s bit rows).freeCtr = s.freeCtr := rfl
end DrawRows

section SetHost
variable (events : List HostEvent) (s : State)
@[simp] theorem setHost_params : (setHost events s).params = s.params := rfl
@[simp] theorem setHost_mode : (setHost events s).mode = s.mode := rfl
@[simp] theorem setHost_interlace : (setHost events s).interlace = s.interlace := rfl
@[simp] theorem setHost_fullRedrawPending : (setHost events s).fullRedrawPending = s.fullRedrawPending := rfl
@[simp] theorem setHost_fbValid : (setHost events s).fbValid = s.fbValid := rfl
@[simp] theorem setHost_err : (setHost events s).err = s.err := rfl
@[simp] theorem setHost_errCause : (setHost events s).errCause = s.errCause := rfl
@[simp] theorem setHost_firstRow : (setHost events s).firstRow = s.firstRow := rfl
@[simp] theorem setHost_rowCount : (setHost events s).rowCount = s.rowCount := rfl
@[simp] theorem setHost_fbBase : (setHost events s).fbBase = s.fbBase := rfl
@[simp] theorem setHost_errCmd : (setHost events s).errCmd = s.errCmd := rfl
@[simp] theorem setHost_slw : (setHost events s).slw = s.slw := rfl
@[simp] theorem setHost_slwFresh : (setHost events s).slwFresh = s.slwFresh := rfl
@[simp] theorem setHost_writer : (setHost events s).writer = s.writer := rfl
@[simp] theorem setHost_mem : (setHost events s).mem = s.mem := rfl
@[simp] theorem setHost_host : (setHost events s).host = events := rfl
@[simp] theorem setHost_readData : (setHost events s).readData = s.readData := rfl
@[simp] theorem setHost_raceReads : (setHost events s).raceReads = s.raceReads := rfl
@[simp] theorem setHost_scanlineFault : (setHost events s).scanlineFault = s.scanlineFault := rfl
@[simp] theorem setHost_freeCtr : (setHost events s).freeCtr = s.freeCtr := rfl
end SetHost

section HostStore
variable (address : BitVec 32) (b : Byte) (s : State)
@[simp] theorem hostStore_params : (hostStore address b s).params = s.params := rfl
@[simp] theorem hostStore_mode : (hostStore address b s).mode = s.mode := rfl
@[simp] theorem hostStore_interlace : (hostStore address b s).interlace = s.interlace := rfl
@[simp] theorem hostStore_fullRedrawPending : (hostStore address b s).fullRedrawPending = s.fullRedrawPending := rfl
@[simp] theorem hostStore_fbValid : (hostStore address b s).fbValid = s.fbValid := rfl
@[simp] theorem hostStore_err : (hostStore address b s).err = s.err := rfl
@[simp] theorem hostStore_errCause : (hostStore address b s).errCause = s.errCause := rfl
@[simp] theorem hostStore_firstRow : (hostStore address b s).firstRow = s.firstRow := rfl
@[simp] theorem hostStore_rowCount : (hostStore address b s).rowCount = s.rowCount := rfl
@[simp] theorem hostStore_fbBase : (hostStore address b s).fbBase = s.fbBase := rfl
@[simp] theorem hostStore_errCmd : (hostStore address b s).errCmd = s.errCmd := rfl
@[simp] theorem hostStore_slw : (hostStore address b s).slw = s.slw := rfl
@[simp] theorem hostStore_slwFresh : (hostStore address b s).slwFresh = s.slwFresh := rfl
@[simp] theorem hostStore_writer : (hostStore address b s).writer = s.writer := rfl
@[simp] theorem hostStore_mem : (hostStore address b s).mem = s.mem.store [(address.toNat, b)] := rfl
@[simp] theorem hostStore_host : (hostStore address b s).host = s.host := rfl
@[simp] theorem hostStore_readData : (hostStore address b s).readData = s.readData := rfl
@[simp] theorem hostStore_raceReads : (hostStore address b s).raceReads = s.raceReads := rfl
@[simp] theorem hostStore_scanlineFault : (hostStore address b s).scanlineFault = s.scanlineFault := rfl
@[simp] theorem hostStore_freeCtr : (hostStore address b s).freeCtr = s.freeCtr := rfl
end HostStore

section HostLoad
variable (address : BitVec 32) (s : State)
@[simp] theorem hostLoad_params : (hostLoad address s).params = s.params := rfl
@[simp] theorem hostLoad_mode : (hostLoad address s).mode = s.mode := rfl
@[simp] theorem hostLoad_interlace : (hostLoad address s).interlace = s.interlace := rfl
@[simp] theorem hostLoad_fullRedrawPending : (hostLoad address s).fullRedrawPending = s.fullRedrawPending := rfl
@[simp] theorem hostLoad_fbValid : (hostLoad address s).fbValid = s.fbValid := rfl
@[simp] theorem hostLoad_err : (hostLoad address s).err = s.err := rfl
@[simp] theorem hostLoad_errCause : (hostLoad address s).errCause = s.errCause := rfl
@[simp] theorem hostLoad_firstRow : (hostLoad address s).firstRow = s.firstRow := rfl
@[simp] theorem hostLoad_rowCount : (hostLoad address s).rowCount = s.rowCount := rfl
@[simp] theorem hostLoad_fbBase : (hostLoad address s).fbBase = s.fbBase := rfl
@[simp] theorem hostLoad_errCmd : (hostLoad address s).errCmd = s.errCmd := rfl
@[simp] theorem hostLoad_slw : (hostLoad address s).slw = s.slw := rfl
@[simp] theorem hostLoad_slwFresh : (hostLoad address s).slwFresh = s.slwFresh := rfl
@[simp] theorem hostLoad_writer : (hostLoad address s).writer = s.writer := rfl
@[simp] theorem hostLoad_mem : (hostLoad address s).mem = s.mem := rfl
@[simp] theorem hostLoad_host : (hostLoad address s).host = s.host := rfl
@[simp] theorem hostLoad_readData : (hostLoad address s).readData = (framebufferByte s address.toNat).setWidth 32 := rfl
@[simp] theorem hostLoad_raceReads : (hostLoad address s).raceReads = s.raceReads := rfl
@[simp] theorem hostLoad_scanlineFault : (hostLoad address s).scanlineFault = s.scanlineFault := rfl
@[simp] theorem hostLoad_freeCtr : (hostLoad address s).freeCtr = s.freeCtr := rfl
end HostLoad

section BlockReset
variable (s : State)
@[simp] theorem blockReset_params : (blockReset s).params = s.params := rfl
@[simp] theorem blockReset_mode : (blockReset s).mode = .natural := rfl
@[simp] theorem blockReset_interlace : (blockReset s).interlace = false := rfl
@[simp] theorem blockReset_fullRedrawPending : (blockReset s).fullRedrawPending = true := rfl
@[simp] theorem blockReset_fbValid : (blockReset s).fbValid = false := rfl
@[simp] theorem blockReset_err : (blockReset s).err = false := rfl
@[simp] theorem blockReset_errCause : (blockReset s).errCause = .none := rfl
@[simp] theorem blockReset_firstRow : (blockReset s).firstRow = 0 := rfl
@[simp] theorem blockReset_rowCount : (blockReset s).rowCount = 0 := rfl
@[simp] theorem blockReset_fbBase : (blockReset s).fbBase = 0 := rfl
@[simp] theorem blockReset_errCmd : (blockReset s).errCmd = 0 := rfl
@[simp] theorem blockReset_slw : (blockReset s).slw = Vector.replicate 40 0 := rfl
@[simp] theorem blockReset_slwFresh : (blockReset s).slwFresh = Vector.replicate 40 false := rfl
@[simp] theorem blockReset_writer : (blockReset s).writer = ⟨0, 0, 0⟩ := rfl
@[simp] theorem blockReset_mem : (blockReset s).mem = s.mem := rfl
@[simp] theorem blockReset_host : (blockReset s).host = s.host := rfl
@[simp] theorem blockReset_readData : (blockReset s).readData = s.readData := rfl
@[simp] theorem blockReset_raceReads : (blockReset s).raceReads = s.raceReads := rfl
@[simp] theorem blockReset_scanlineFault : (blockReset s).scanlineFault = s.scanlineFault := rfl
@[simp] theorem blockReset_freeCtr : (blockReset s).freeCtr = s.freeCtr + 1 := rfl
end BlockReset

section RaiseError
variable (cause : Cause) (w : Word) (s : State)
@[simp] theorem raiseError_params : (raiseError cause w s).params = s.params := by
  cases h : s.err <;> simp [raiseError, h]
@[simp] theorem raiseError_mode : (raiseError cause w s).mode = s.mode := by
  cases h : s.err <;> simp [raiseError, h]
@[simp] theorem raiseError_interlace : (raiseError cause w s).interlace = s.interlace := by
  cases h : s.err <;> simp [raiseError, h]
@[simp] theorem raiseError_fullRedrawPending : (raiseError cause w s).fullRedrawPending = s.fullRedrawPending := by
  cases h : s.err <;> simp [raiseError, h]
@[simp] theorem raiseError_fbValid : (raiseError cause w s).fbValid = s.fbValid := by
  cases h : s.err <;> simp [raiseError, h]
@[simp] theorem raiseError_err : (raiseError cause w s).err = true := by
  cases h : s.err <;> simp [raiseError, h]
@[simp] theorem raiseError_errCause : (raiseError cause w s).errCause = if s.err then s.errCause else cause := by
  cases h : s.err <;> simp [raiseError, h]
@[simp] theorem raiseError_firstRow : (raiseError cause w s).firstRow = s.firstRow := by
  cases h : s.err <;> simp [raiseError, h]
@[simp] theorem raiseError_rowCount : (raiseError cause w s).rowCount = s.rowCount := by
  cases h : s.err <;> simp [raiseError, h]
@[simp] theorem raiseError_fbBase : (raiseError cause w s).fbBase = s.fbBase := by
  cases h : s.err <;> simp [raiseError, h]
@[simp] theorem raiseError_errCmd : (raiseError cause w s).errCmd = if s.err then s.errCmd else w := by
  cases h : s.err <;> simp [raiseError, h]
@[simp] theorem raiseError_slw : (raiseError cause w s).slw = s.slw := by
  cases h : s.err <;> simp [raiseError, h]
@[simp] theorem raiseError_slwFresh : (raiseError cause w s).slwFresh = s.slwFresh := by
  cases h : s.err <;> simp [raiseError, h]
@[simp] theorem raiseError_writer : (raiseError cause w s).writer = s.writer := by
  cases h : s.err <;> simp [raiseError, h]
@[simp] theorem raiseError_mem : (raiseError cause w s).mem = s.mem := by
  cases h : s.err <;> simp [raiseError, h]
@[simp] theorem raiseError_host : (raiseError cause w s).host = s.host := by
  cases h : s.err <;> simp [raiseError, h]
@[simp] theorem raiseError_readData : (raiseError cause w s).readData = s.readData := by
  cases h : s.err <;> simp [raiseError, h]
@[simp] theorem raiseError_raceReads : (raiseError cause w s).raceReads = s.raceReads := by
  cases h : s.err <;> simp [raiseError, h]
@[simp] theorem raiseError_scanlineFault : (raiseError cause w s).scanlineFault = s.scanlineFault := by
  cases h : s.err <;> simp [raiseError, h]
@[simp] theorem raiseError_freeCtr : (raiseError cause w s).freeCtr = s.freeCtr := by
  cases h : s.err <;> simp [raiseError, h]
end RaiseError

section RecordRace
variable (s t : State) (watched : List (BitVec 32))
@[simp] theorem recordRace_params : (recordRace s t watched).params = t.params := rfl
@[simp] theorem recordRace_mode : (recordRace s t watched).mode = t.mode := rfl
@[simp] theorem recordRace_interlace : (recordRace s t watched).interlace = t.interlace := rfl
@[simp] theorem recordRace_fullRedrawPending : (recordRace s t watched).fullRedrawPending = t.fullRedrawPending := rfl
@[simp] theorem recordRace_fbValid : (recordRace s t watched).fbValid = t.fbValid := rfl
@[simp] theorem recordRace_err : (recordRace s t watched).err = t.err := rfl
@[simp] theorem recordRace_errCause : (recordRace s t watched).errCause = t.errCause := rfl
@[simp] theorem recordRace_firstRow : (recordRace s t watched).firstRow = t.firstRow := rfl
@[simp] theorem recordRace_rowCount : (recordRace s t watched).rowCount = t.rowCount := rfl
@[simp] theorem recordRace_fbBase : (recordRace s t watched).fbBase = t.fbBase := rfl
@[simp] theorem recordRace_errCmd : (recordRace s t watched).errCmd = t.errCmd := rfl
@[simp] theorem recordRace_slw : (recordRace s t watched).slw = t.slw := rfl
@[simp] theorem recordRace_slwFresh : (recordRace s t watched).slwFresh = t.slwFresh := rfl
@[simp] theorem recordRace_writer : (recordRace s t watched).writer = t.writer := rfl
@[simp] theorem recordRace_mem : (recordRace s t watched).mem = t.mem := rfl
@[simp] theorem recordRace_host : (recordRace s t watched).host = t.host := rfl
@[simp] theorem recordRace_readData : (recordRace s t watched).readData = t.readData := rfl
@[simp] theorem recordRace_scanlineFault : (recordRace s t watched).scanlineFault = t.scanlineFault := rfl
@[simp] theorem recordRace_freeCtr : (recordRace s t watched).freeCtr = t.freeCtr + 1 := rfl
end RecordRace

end Sys2Proof.Machine
end

