-- ==== Sys2Proof/Laws/Writer.lean ====
section
/-! SUPPORT. The Bit-Packed Row Writer: what emitting a row does, all at once (40_datapath.md R83 to R89). -/

namespace Sys2Proof.Machine

/-! ### Geometry -/

/-- The widths the machine word can have (R7). -/
theorem wordBits_cases (p : Params) : wordBits p = 16 ∨ wordBits p = 32 ∨ wordBits p = 64 := by
  unfold wordBits; split <;> simp

theorem wordBytes_cases (p : Params) : wordBytes p = 2 ∨ wordBytes p = 4 ∨ wordBytes p = 8 := by
  unfold wordBytes; rcases wordBits_cases p with h | h | h <;> simp [h]

theorem wordBits_eq (p : Params) : wordBits p = 8 * wordBytes p := by
  unfold wordBytes; rcases wordBits_cases p with h | h | h <;> simp [h]

/-- A row holds at least 400 columns (R8). -/
theorem destWidth_le_stride (p : Params) : destWidth ≤ 8 * strideBytes p := by
  have h1 : destWidth ≤ (destWidth + wordBits p - 1) / wordBits p * wordBits p := by
    rcases wordBits_cases p with h | h | h <;> simp [h, destWidth]
  have h2 : 8 * strideBytes p = rowWords p * wordBits p := by
    rw [wordBits_eq, strideBytes, Nat.mul_left_comm]
  rw [h2, rowWords, Nat.add_mul]
  omega

theorem strideBytes_pos (p : Params) : 0 < strideBytes p := by
  have := destWidth_le_stride p
  simp only [destWidth] at this
  omega

/-! ### Emitting the bits of a word -/

/-- ACC after the first `n` bits of a word have been emitted, where bit `k + i` of `f` is the i-th (R84). -/
def accAfter (p : Params) (f : Nat → Bool) (k : Nat) : Nat → BitVec 64
  | 0 => 0
  | n + 1 => accAfter p f k n ||| ((BitVec.ofBool (f (k + n))).setWidth 64 <<< (wordBits p - 1 - n))

/-- The first bit emitted is the most significant bit of the word (R84). -/
theorem accAfter_getLsbD (p : Params) (f : Nat → Bool) (k n i : Nat) (hn : n ≤ wordBits p) :
    (accAfter p f k n).getLsbD i
      = (decide (i < wordBits p) && decide (wordBits p - 1 - i < n) && f (k + (wordBits p - 1 - i))) := by
  have hw : wordBits p ≤ 64 := by rcases wordBits_cases p with h | h | h <;> omega
  induction n with
  | zero => simp [accAfter]
  | succ n ih =>
    rw [accAfter, BitVec.getLsbD_or, ih (by omega), BitVec.getLsbD_shiftLeft, BitVec.getLsbD_setWidth,
      BitVec.getLsbD_ofBool]
    by_cases hi : i < wordBits p
    · rcases Nat.lt_trichotomy (wordBits p - 1 - i) n with h | h | h
      · have h0 : ¬ (i - (wordBits p - 1 - n) = 0) := by omega
        have h1 : wordBits p - 1 - i < n + 1 := by omega
        simp [hi, h, h1, h0]
      · subst h
        have h0 : i - (wordBits p - 1 - (wordBits p - 1 - i)) = 0 := by omega
        have h2 : ¬ i < wordBits p - 1 - (wordBits p - 1 - i) := by omega
        have h3 : i < 64 := by omega
        simp [hi, h0, h2, h3]
      · have h1 : ¬ wordBits p - 1 - i < n := by omega
        have h2 : ¬ wordBits p - 1 - i < n + 1 := by omega
        have h3 : i < wordBits p - 1 - n := by omega
        simp [h1, h2, h3]
    · have h0 : ¬ (i - (wordBits p - 1 - n) = 0) := by omega
      simp [hi, h0]

theorem emitBits_append (p : Params) (xs ys : List Bool) (w : Writer) :
    emitBits p (xs ++ ys) w
      = ((emitBits p ys (emitBits p xs w).1).1, (emitBits p xs w).2 ++ (emitBits p ys (emitBits p xs w).1).2) := by
  induction xs generalizing w with
  | nil => simp [emitBits]
  | cons b xs ih => simp [emitBits, ih]

/-- Emitting the bits that are left of a word flushes it, and nothing else (R84, R85). -/
theorem emitBits_rest (p : Params) (f : Nat → Bool) (k n m : Nat) (a : BitVec 32) (hm : n + (m + 1) = wordBits p) :
    emitBits p ((List.range' (k + n) (m + 1)).map f) ⟨accAfter p f k n, n, a⟩
      = (⟨0, 0, a + BitVec.ofNat 32 (wordBytes p)⟩, memWrite a (wordBytes p) (accAfter p f k (wordBits p))) := by
  induction m generalizing n with
  | zero =>
    have hn : n + 1 = wordBits p := by omega
    simp only [List.range', List.map_cons, List.map_nil, emitBits, emit, if_pos hn, flush, List.append_nil]
    rw [← hn, accAfter]
    simp [← hn]
  | succ m ih =>
    have hn : n + 1 ≠ wordBits p := by omega
    have step := ih (n + 1) (by omega)
    rw [List.range'_succ, List.map_cons, emitBits]
    simp only [emit, if_neg hn, List.nil_append]
    rw [show k + n + 1 = k + (n + 1) from rfl]
    rw [accAfter] at step
    simpa using step

/-- A word: after WORD_BITS emits from the idle writer, one flush (R84). -/
theorem emitBits_word (p : Params) (f : Nat → Bool) (k : Nat) (a : BitVec 32) :
    emitBits p ((List.range' k (wordBits p)).map f) ⟨0, 0, a⟩
      = (⟨0, 0, a + BitVec.ofNat 32 (wordBytes p)⟩, memWrite a (wordBytes p) (accAfter p f k (wordBits p))) := by
  have hpos : 0 + (wordBits p - 1 + 1) = wordBits p := by rcases wordBits_cases p with h | h | h <;> omega
  have h := emitBits_rest p f k 0 (wordBits p - 1) a hpos
  rw [show wordBits p - 1 + 1 = wordBits p from by omega] at h
  simpa [accAfter] using h

/-! ### Bytes -/

/-- Byte j of a row whose column k holds `bit k`: its most significant bit is column 8j (20_memory.md R42). -/
def packByte (bit : Nat → Bool) (j : Nat) : Byte :=
  BitVec.ofBool (bit (8 * j)) ++ BitVec.ofBool (bit (8 * j + 1)) ++ BitVec.ofBool (bit (8 * j + 2)) ++
    BitVec.ofBool (bit (8 * j + 3)) ++ BitVec.ofBool (bit (8 * j + 4)) ++ BitVec.ofBool (bit (8 * j + 5)) ++
    BitVec.ofBool (bit (8 * j + 6)) ++ BitVec.ofBool (bit (8 * j + 7))

theorem packByte_getLsbD (bit : Nat → Bool) (j t : Nat) (ht : t < 8) :
    (packByte bit j).getLsbD t = bit (8 * j + (7 - t)) := by
  simp only [packByte, BitVec.getLsbD_append, BitVec.getLsbD_ofBool]
  interval_cases t <;> simp

theorem packByte_shift (bit : Nat → Bool) (n j : Nat) :
    packByte (fun k => bit (8 * n + k)) j = packByte bit (n + j) := by
  simp [packByte, Nat.mul_add, Nat.add_assoc]

/-- The bytes of a full word, in address order (20_memory.md R42, R43). -/
theorem memWrite_accAfter (p : Params) (f : Nat → Bool) (k : Nat) (a : BitVec 32) :
    memWrite a (wordBytes p) (accAfter p f k (wordBits p))
      = (List.range (wordBytes p)).map
          fun i => ((a + BitVec.ofNat 32 i).toNat, packByte (fun t => f (k + t)) i) := by
  refine List.map_congr_left fun i hi => ?_
  have hi := List.mem_range.mp hi
  refine Prod.ext rfl (BitVec.eq_of_getLsbD_eq fun t ht => ?_)
  have hw := wordBits_eq p
  rw [BitVec.getLsbD_extractLsb', accAfter_getLsbD p f k _ _ (Nat.le_refl _), packByte_getLsbD _ _ _ ht]
  have h1 : 8 * (wordBytes p - i) - 8 + t < wordBits p := by omega
  have h2 : wordBits p - 1 - (8 * (wordBytes p - i) - 8 + t) = 8 * i + (7 - t) := by omega
  have h3 : 8 * i + (7 - t) < wordBits p := by omega
  simp [ht, h1, h2, h3]

/-- Some words: the bytes written, in address order, and the idle writer after them (R84 to R89). -/
theorem emitBits_words (p : Params) (f : Nat → Bool) (n k : Nat) (a : BitVec 32) :
    emitBits p ((List.range' k (n * wordBits p)).map f) ⟨0, 0, a⟩
      = (⟨0, 0, a + BitVec.ofNat 32 (n * wordBytes p)⟩,
         (List.range (n * wordBytes p)).map
           fun j => ((a + BitVec.ofNat 32 j).toNat, packByte (fun t => f (k + t)) j)) := by
  induction n generalizing k a with
  | zero => simp [emitBits]
  | succ n ih =>
    have e1 : List.range' k ((n + 1) * wordBits p)
        = List.range' k (wordBits p) ++ List.range' (k + wordBits p) (n * wordBits p) := by
      rw [List.range'_append_1, Nat.add_mul, Nat.one_mul, Nat.add_comm]
    have e2 : (n + 1) * wordBytes p = wordBytes p + n * wordBytes p := by
      rw [Nat.add_mul, Nat.one_mul, Nat.add_comm]
    have e3 : ∀ j, packByte (fun t => f (k + wordBits p + t)) j = packByte (fun t => f (k + t)) (wordBytes p + j) := by
      intro j
      rw [← packByte_shift, wordBits_eq]
      simp only [Nat.add_assoc]
    rw [e1, List.map_append, emitBits_append, emitBits_word, ih, memWrite_accAfter, e2, List.range_add, List.map_append,
      List.map_map]
    simp only [e3, BitVec.add_assoc, BitVec.ofNat_add, Function.comp_def]

/-! ### Rows -/

/-- The bytes WriteRow writes, in address order (R86, R89). -/
def rowCells (s : State) (bit : Nat → Bool) (r : Nat) : List Host.Cell :=
  (List.range (strideBytes s.params)).map
    fun j => ((rowAddress s r + BitVec.ofNat 32 j).toNat, packByte bit j)

/-- WriteRow: the bytes of the row, and the idle writer at the row's end (R86, R87). -/
theorem writeRow_eq (s : State) (bit : Nat → Bool) (r : Nat) :
    writeRow s bit r
      = (⟨0, 0, rowAddress s r + BitVec.ofNat 32 (strideBytes s.params)⟩, rowCells s bit r) := by
  have h : 8 * strideBytes s.params = rowWords s.params * wordBits s.params := by
    rw [wordBits_eq, strideBytes, Nat.mul_left_comm]
  rw [writeRow, h, List.range_eq_range', beginRow, emitBits_words]
  simp [rowCells, strideBytes]

theorem writeRows_cells (s : State) (bit : Nat → Nat → Bool) (rows : List Nat) (w : Writer) :
    (writeRows s bit rows w).2 = rows.flatMap fun r => rowCells s (bit r) r := by
  induction rows generalizing w with
  | nil => rfl
  | cons r rs ih => simp [writeRows, writeRow_eq, ih]

/-- After some rows the writer is idle (R30, R87). -/
theorem writeRows_idle (s : State) (bit : Nat → Nat → Bool) (rows : List Nat) (w : Writer)
    (hw : w.acc = 0 ∧ w.nb = 0) : (writeRows s bit rows w).1.acc = 0 ∧ (writeRows s bit rows w).1.nb = 0 := by
  induction rows generalizing w with
  | nil => exact hw
  | cons r rs ih =>
    rw [writeRows]
    exact ih _ (by simp [writeRow_eq])

/-- After some rows the writer is idle at the end of the last one (R83, R87). -/
theorem writeRows_writer (s : State) (bit : Nat → Nat → Bool) {rows : List Nat} (hr : rows ≠ []) (w : Writer) :
    (writeRows s bit rows w).1
      = ⟨0, 0, s.fbBase + BitVec.ofNat 32 ((rows.getLastD 0 + 1) * strideBytes s.params)⟩ := by
  induction rows generalizing w with
  | nil => exact absurd rfl hr
  | cons r rs ih =>
    rw [writeRows]
    cases rs with
    | nil =>
      simp only [writeRows, writeRow_eq, rowAddress, List.getLastD_cons, List.getLastD_nil, Nat.add_mul, Nat.one_mul,
        BitVec.ofNat_add, BitVec.add_assoc]
    | cons q qs =>
      have h := ih (by simp) (writeRow s (bit r) r).1
      simpa only [List.getLastD_cons] using h

/-- What a row writes depends on the stride and FB_BASE, and on nothing else of the state (R42). -/
theorem writeRows_congr {s t : State} (hp : strideBytes t.params = strideBytes s.params) (hb : t.fbBase = s.fbBase)
    (bit : Nat → Nat → Bool) (rows : List Nat) (w : Writer) : writeRows t bit rows w = writeRows s bit rows w := by
  induction rows generalizing w with
  | nil => rfl
  | cons r rs ih => simp only [writeRows, writeRow_eq, rowCells, rowAddress, hp, hb, ih]

/-! ### What a command that draws does to memory -/

theorem regionFits_iff (s : State) :
    regionFits s = true ↔ s.fbBase.toNat + destRows * strideBytes s.params ≤ 2 ^ 32 := by
  simp [regionFits]

theorem rowStart_add_stride (s : State) (r : Nat) :
    rowStart s r + strideBytes s.params = rowStart s (r + 1) := by
  simp [rowStart, Nat.add_mul, Nat.add_assoc]

theorem rowStart_mono (s : State) {r q : Nat} (h : r ≤ q) : rowStart s r ≤ rowStart s q :=
  Nat.add_le_add_left (Nat.mul_le_mul_right _ h) _

theorem rowStart_end (s : State) (hf : regionFits s = true) {r : Nat} (hr : r < destRows) :
    rowStart s r + strideBytes s.params ≤ 2 ^ 32 := by
  rw [rowStart_add_stride]
  exact Nat.le_trans (rowStart_mono s hr) ((regionFits_iff s).mp hf)

/-- No address of a row wraps, in a region that fits (R46). -/
theorem rowAddress_toNat (s : State) (hf : regionFits s = true) {r j : Nat} (hr : r < destRows)
    (hj : j < strideBytes s.params) : (rowAddress s r + BitVec.ofNat 32 j).toNat = rowStart s r + j := by
  have h := rowStart_end s hf hr
  simp only [rowAddress, BitVec.toNat_add, BitVec.toNat_ofNat]
  rw [rowStart] at h ⊢
  omega

theorem rowCells_eq (s : State) (hf : regionFits s = true) (bit : Nat → Bool) {r : Nat} (hr : r < destRows) :
    rowCells s bit r = (List.range (strideBytes s.params)).map fun j => (rowStart s r + j, packByte bit j) :=
  List.map_congr_left fun j hj => by rw [rowAddress_toNat s hf hr (List.mem_range.mp hj)]

theorem mem_rowCells (s : State) (hf : regionFits s = true) (bit : Nat → Bool) {r : Nat} (hr : r < destRows)
    {c : Host.Cell} : c ∈ rowCells s bit r ↔ ∃ j < strideBytes s.params, (rowStart s r + j, packByte bit j) = c := by
  simp [rowCells_eq s hf bit hr]

theorem rowCells_rising (s : State) (hf : regionFits s = true) (bit : Nat → Bool) {r : Nat} (hr : r < destRows) :
    Rising (rowCells s bit r) := by
  rw [rowCells_eq s hf bit hr]
  refine List.pairwise_map.mpr (List.pairwise_lt_range.imp fun h => ?_)
  simpa using h

/-- Rows that rise and are destination rows. -/
abbrev DrawableRows (rows : List Nat) : Prop := rows.Pairwise (· < ·) ∧ ∀ r ∈ rows, r < destRows

/-- The bytes of a command, taken together, rise and lie in the address space (R51). -/
theorem flatMap_rowCells_wf (s : State) (hf : regionFits s = true) (bit : Nat → Nat → Bool) {rows : List Nat}
    (hrows : DrawableRows rows) : Memory.wf (rows.flatMap fun r => rowCells s (bit r) r) := by
  constructor
  · refine List.pairwise_flatMap.mpr ⟨fun r hr => rowCells_rising s hf _ (hrows.2 r hr), ?_⟩
    refine hrows.1.imp_of_mem fun {r q} hr hq hlt c hc d hd => ?_
    obtain ⟨i, hi, rfl⟩ := (mem_rowCells s hf _ (hrows.2 r hr)).mp hc
    obtain ⟨j, hj, rfl⟩ := (mem_rowCells s hf _ (hrows.2 q hq)).mp hd
    have h1 := rowStart_mono s (show r + 1 ≤ q from hlt)
    have h2 := rowStart_add_stride s r
    simp only
    omega
  · intro c hc
    obtain ⟨r, hr, hc⟩ := List.mem_flatMap.mp hc
    obtain ⟨j, hj, rfl⟩ := (mem_rowCells s hf _ (hrows.2 r hr)).mp hc
    have := rowStart_end s hf (hrows.2 r hr)
    simp only
    omega

/-- Drawing keeps the canonical form of memory. -/
theorem drawRows_wf (s : State) (hf : regionFits s = true) (bit : Nat → Nat → Bool) {rows : List Nat}
    (hrows : DrawableRows rows) (hm : Memory.wf s.mem) : Memory.wf (drawRows s bit rows).mem := by
  rw [drawRows_mem, writeRows_cells]
  exact Memory.store_wf hm (flatMap_rowCells_wf s hf bit hrows)

/-- Every byte of a drawn row holds its eight columns (R42, R86). -/
theorem drawRows_read_row (s : State) (hf : regionFits s = true) (bit : Nat → Nat → Bool) {rows : List Nat}
    (hrows : DrawableRows rows) (hm : Rising s.mem) {r j : Nat} (hr : r ∈ rows) (hj : j < strideBytes s.params) :
    (drawRows s bit rows).mem.read (rowStart s r + j) = some (packByte (bit r) j) := by
  have hwf := flatMap_rowCells_wf s hf bit hrows
  rw [drawRows_mem, writeRows_cells, Memory.read_store hm hwf.1, Memory.read_eq_some hwf.1 (b := packByte (bit r) j)]
  · rfl
  · exact List.mem_flatMap.mpr ⟨r, hr, (mem_rowCells s hf _ (hrows.2 r hr)).mpr ⟨j, hj, rfl⟩⟩

/-- Every byte outside the drawn rows reads as before (R41, R86). -/
theorem drawRows_read_other (s : State) (hf : regionFits s = true) (bit : Nat → Nat → Bool) {rows : List Nat}
    (hrows : DrawableRows rows) (hm : Rising s.mem) {a : Nat}
    (ha : ∀ r ∈ rows, a < rowStart s r ∨ rowStart s r + strideBytes s.params ≤ a) :
    (drawRows s bit rows).mem.read a = s.mem.read a := by
  have hwf := flatMap_rowCells_wf s hf bit hrows
  rw [drawRows_mem, writeRows_cells, Memory.read_store hm hwf.1, Memory.read_eq_none]
  · simp
  · intro c hc
    obtain ⟨r, hr, hc⟩ := List.mem_flatMap.mp hc
    obtain ⟨j, hj, rfl⟩ := (mem_rowCells s hf _ (hrows.2 r hr)).mp hc
    have := ha r hr
    simp only
    omega

end Sys2Proof.Machine
end

