-- ==== Sys2Proof/Laws/Operands.lean ====
section
/-! SUPPORT. The row and column maps of the modes (41_render.md R101 to R110), and the pixels a row draws. -/

namespace Sys2Proof.Machine

/-! ### Rows -/

theorem mem_naturalRows (l r : Nat) : r ∈ naturalRows l ↔ r = 48 + l ∧ r < 240 := by
  simp [naturalRows, verticalOffset, destRows]

theorem mem_slicedRows (l r : Nat) : r ∈ slicedRows l ↔ r = 12 + 3 * l / 2 ∧ r < 240 := by
  simp [slicedRows, verticalOffset, destRows]

theorem mem_doubledRows (l r : Nat) :
    r ∈ doubledRows l ↔ (12 ≤ l ∧ l ≤ 131) ∧ (r = 2 * (l - 12) ∨ r = 2 * (l - 12) + 1) := by
  unfold doubledRows
  split <;> simp_all

/-- The Fitted row map in closed form: the odd candidate is dropped just where `l mod 3 = 2` (R103). -/
theorem fittedRows_eq (l : Nat) :
    fittedRows l =
      if 144 ≤ l then [] else if l % 3 = 2 then [5 * (l / 3) + 4]
      else [2 * l - 2 * l / 6, 2 * l - 2 * l / 6 + 1] := by
  have h0 : 2 * l % 6 ≠ 5 := by omega
  unfold fittedRows
  by_cases h1 : l % 3 = 2
  · have h2 : (2 * l + 1) % 6 = 5 := by omega
    have h3 : 2 * l - 2 * l / 6 = 5 * (l / 3) + 4 := by omega
    by_cases h4 : 144 ≤ l
    · have h5 : ¬ 5 * (l / 3) + 4 < 240 := by omega
      simp [h0, h2, h3, h4, h5, destRows]
    · have h5 : 5 * (l / 3) + 4 < 240 := by omega
      simp [h0, h1, h2, h3, h4, h5, destRows]
  · have h2 : (2 * l + 1) % 6 ≠ 5 := by omega
    have h3 : 2 * l + 1 - (2 * l + 1) / 6 = 2 * l - 2 * l / 6 + 1 := by omega
    by_cases h4 : 144 ≤ l
    · have h5 : ¬ 2 * l - 2 * l / 6 < 240 := by omega
      have h6 : ¬ 2 * l - 2 * l / 6 + 1 < 240 := by omega
      simp [h0, h2, h3, h4, h5, h6, destRows]
    · have h5 : 2 * l - 2 * l / 6 < 240 := by omega
      have h6 : 2 * l - 2 * l / 6 + 1 < 240 := by omega
      simp [h0, h1, h2, h3, h4, h5, h6, destRows]

theorem mem_fittedRows (l r : Nat) :
    r ∈ fittedRows l ↔ ∃ d, (d = 2 * l ∨ d = 2 * l + 1) ∧ d % 6 ≠ 5 ∧ r = d - d / 6 ∧ r < 240 := by
  simp only [fittedRows, destRows, List.mem_filter, List.mem_map, List.mem_cons, List.not_mem_nil, or_false,
    decide_eq_true_eq]
  constructor
  · rintro ⟨⟨d, ⟨h1, h2⟩, rfl⟩, h3⟩
    exact ⟨d, h1, by simpa using h2, rfl, by simpa using h3⟩
  · rintro ⟨d, h1, h2, rfl, h3⟩
    exact ⟨⟨d, ⟨h1, by simpa using h2⟩, rfl⟩, by simpa using h3⟩

/-- A list of rows that is a span, `FIRST_ROW .. FIRST_ROW + ROW_COUNT - 1`, of at most two destination rows
(10_state.md R25, R110). -/
abbrev ShortSpan (rows : List Nat) : Prop :=
  rows = List.range' (rows.headD 0) rows.length ∧ rows.length ≤ 2 ∧ rows.headD 0 + rows.length ≤ 240

theorem shortSpan_filter_range' (first n : Nat) (hn : n ≤ 2) :
    ShortSpan ((List.range' first n).filter (· < destRows)) := by
  interval_cases n
  · simp [ShortSpan]
  · by_cases h : first < 240 <;> simp [ShortSpan, destRows, List.range', h]
  · by_cases h : first < 240
    · by_cases h' : first + 1 < 240
      · simp [ShortSpan, destRows, List.range', h, h']
        omega
      · simp [ShortSpan, destRows, List.range', h, h']
    · have h' : ¬ first + 1 < 240 := by omega
      simp [ShortSpan, destRows, List.range', h, h']

/-- Every row map gives a span of at most two destination rows (R109, R110). -/
theorem rowMap_shortSpan (m : Mode) (l : Nat) : ShortSpan (rowMap m l) := by
  cases m
  · exact shortSpan_filter_range' (48 + l) 1 (by omega)
  · show ShortSpan (fittedRows l)
    rw [fittedRows_eq]
    split
    · simp [ShortSpan]
    · split
      · simp [ShortSpan]; omega
      · simp [ShortSpan, List.range']; omega
  · show ShortSpan (doubledRows l)
    unfold doubledRows
    split
    · simp [ShortSpan, List.range']; omega
    · simp [ShortSpan]
  · exact shortSpan_filter_range' (12 + 3 * l / 2) 1 (by omega)

theorem renderRows_shortSpan (s : State) (line : BitVec 8) : ShortSpan (renderRows s line) := by
  unfold renderRows
  split
  · exact shortSpan_filter_range' _ _ (by omega)
  · exact rowMap_shortSpan _ _

/-- A span of destination rows rises. -/
theorem ShortSpan.drawable {rows : List Nat} (h : ShortSpan rows) : DrawableRows rows := by
  obtain ⟨h1, -, h3⟩ := h
  rw [h1]
  refine ⟨List.pairwise_lt_range', fun r hr => ?_⟩
  have := List.mem_range'_1.mp hr
  simp only [destRows] at *
  omega

theorem renderRows_drawable (s : State) (line : BitVec 8) : DrawableRows (renderRows s line) :=
  (renderRows_shortSpan s line).drawable

/-- A command that draws no row reads no pixel (R164). -/
@[simp] theorem readsStale_nil (s : State) : readsStale s [] = false := rfl

/-- A command that draws a row reads a stale pixel just where some register has not been written (R164). -/
theorem readsStale_eq_false (s : State) (rows : List Nat) :
    readsStale s rows = false ↔ rows = [] ∨ scanlineLoaded s = true := by
  cases rows <;> simp [readsStale]

theorem allRows_drawable : DrawableRows (List.range destRows) :=
  ⟨List.pairwise_lt_range, fun _ h => List.mem_range.mp h⟩

/-! ### Columns -/

theorem colMap_natural (k : Nat) :
    colMap .natural k = if h : 120 ≤ k ∧ k < 280 then some ⟨k - 120, by omega⟩ else none := by
  by_cases h : 120 ≤ k ∧ k < 280 <;> simp [colMap, imageColumn, horizontalMargin, imageWidth, h] <;> rfl

theorem colMap_fitted (k : Nat) :
    colMap .fitted k = if h : 40 ≤ k ∧ k < 360 then some ⟨(k - 40) / 2, by omega⟩ else none := by
  by_cases h : 40 ≤ k ∧ k < 360 <;> simp [colMap, imageColumn, horizontalMargin, imageWidth, h] <;> rfl

theorem colMap_doubled (k : Nat) : colMap .doubled k = colMap .fitted k := rfl

theorem colMap_sliced (k : Nat) :
    colMap .sliced k = if h : 80 ≤ k ∧ k < 320 then some ⟨(2 * (k - 80) + 1) / 3, by omega⟩ else none := by
  by_cases h : 80 ≤ k ∧ k < 320 <;> simp [colMap, imageColumn, horizontalMargin, imageWidth, h] <;> rfl

/-- A column shows a pixel just where it is in the image span (00_scope.md R12, R16). -/
theorem colMap_isSome (m : Mode) (k : Nat) :
    (colMap m k).isSome = true ↔ horizontalMargin m ≤ k ∧ k < horizontalMargin m + imageWidth m := by
  simp only [colMap, imageColumn, Option.isSome_map]
  split <;> simp_all

/-! ### Pixels -/

theorem mask_toNat (p : Byte) : (mask p).toNat = p.toNat % 4 := by
  revert p; decide

/-- A drawn row holds, at each of its columns, the bit drawn there (20_memory.md R42, R86). -/
theorem drawRows_pixel (s : State) (hf : regionFits s = true) (bit : Nat → Nat → Bool) {rows : List Nat}
    (hrows : DrawableRows rows) (hm : Rising s.mem) {r k : Nat} (hr : r ∈ rows) (hk : k < 8 * strideBytes s.params) :
    framebufferPixel (drawRows s bit rows) r k = some (bit r k) := by
  have hread := drawRows_read_row s hf bit hrows hm hr (j := k / 8) (by omega)
  have hs : rowStart (drawRows s bit rows) r = rowStart s r := rfl
  rw [framebufferPixel, hs, hread, Option.map_some, packByte_getLsbD _ _ _ (by omega)]
  congr 2
  omega

end Sys2Proof.Machine
end

