-- ==== Sys2Proof/Laws/Exec.lean ====
section
/-! SUPPORT. What an instruction can do, said once: the ways `exec` and `step` answer a next state. -/

namespace Sys2Proof.Machine

/-! ### When a command that draws is refused -/

theorem writeStop_eq_none (s : State) (rows : List Nat) :
    writeStop s rows = none ↔
      rows = [] ∨ (regionFits s = true ∧ ∀ r ∈ rows, rowRejected s r = false) := by
  unfold writeStop
  by_cases h1 : rows = []
  · simp [h1]
  · cases h2 : regionFits s <;> simp [h1]

/-- A framebuffer that is ready takes every set of destination rows. -/
theorem writeStop_of_ready {s : State} (hs : framebufferReady s = true) {rows : List Nat}
    (hr : ∀ r ∈ rows, r < destRows) : writeStop s rows = none := by
  simp only [framebufferReady, Bool.and_eq_true, List.all_eq_true, List.mem_range, Bool.not_eq_true'] at hs
  exact (writeStop_eq_none s rows).mpr (.inr ⟨hs.1.2, fun r h => hs.2 r (hr r h)⟩)

theorem fbValid_of_ready {s : State} (hs : framebufferReady s = true) : s.fbValid = true := by
  simp only [framebufferReady, Bool.and_eq_true] at hs
  exact hs.1.1

theorem regionFits_of_ready {s : State} (hs : framebufferReady s = true) : regionFits s = true := by
  simp only [framebufferReady, Bool.and_eq_true] at hs
  exact hs.1.2

/-- A command that draws no row leaves memory and the writer alone. -/
theorem drawRows_nil (s : State) (bit : Nat → Nat → Bool) : drawRows s bit [] = s := rfl

/-! ### RENDER_LINE and SET_MODE -/

/-- The state after a RENDER_LINE that runs (41_render.md R100). -/
def renderedState (s : State) (line : BitVec 8) : State :=
  consumeScanline (recordScanlineFault (readsStale s (renderRows s line))
    (reportRows (renderRows s line) (drawRows s (renderBit s line) (renderRows s line))))

/-- The state after a SET_MODE that runs (42_control.md R120). -/
def modeSetState (s : State) (mode : Mode) : State :=
  setRedrawPending true (clearScreen (selectMode mode s))

theorem execRenderLine_eq_next {rsv : BitVec 20} {line : BitVec 8} {s t : State}
    (h : execRenderLine rsv line s = .next t) :
    (rsv ≠ 0 ∧ t = consumeScanline (raiseError .rsvField (renderLineWord rsv line) s)) ∨
    (rsv = 0 ∧ s.fbValid = false ∧ t = consumeScanline (raiseError .noFb (renderLineWord rsv line) s)) ∨
    (rsv = 0 ∧ s.fbValid = true ∧ writeStop s (renderRows s line) = none ∧ t = renderedState s line) := by
  unfold execRenderLine at h
  split at h
  · exact .inl ⟨‹_›, by cases h; rfl⟩
  · rename_i h0
    have h0 : rsv = 0 := by simpa using h0
    split at h
    · exact .inr (.inl ⟨h0, by simp_all, by cases h; rfl⟩)
    · split at h
      · cases h
      · exact .inr (.inr ⟨h0, by simp_all, ‹_›, by cases h; rfl⟩)

theorem execSetMode_eq_next {rsv : BitVec 26} {mode : Mode} {s t : State} (h : execSetMode rsv mode s = .next t) :
    (rsv ≠ 0 ∧ t = raiseError .rsvField (setModeWord rsv mode) s) ∨
    (rsv = 0 ∧ s.fbValid = false ∧ t = raiseError .noFb (setModeWord rsv mode) s) ∨
    (rsv = 0 ∧ s.fbValid = true ∧ writeStop s (List.range destRows) = none ∧ t = modeSetState s mode) := by
  unfold execSetMode at h
  split at h
  · exact .inl ⟨‹_›, by cases h; rfl⟩
  · rename_i h0
    have h0 : rsv = 0 := by simpa using h0
    split at h
    · exact .inr (.inl ⟨h0, by simp_all, by cases h; rfl⟩)
    · split at h
      · cases h
      · exact .inr (.inr ⟨h0, by simp_all, ‹_›, by cases h; rfl⟩)

/-- A line is ready where nothing stops it. -/
theorem lineReady_iff (s : State) (line : BitVec 8) :
    lineReady s line = true ↔ s.fbValid = true ∧ writeStop s (renderRows s line) = none := by
  rw [writeStop_eq_none]
  by_cases h : renderRows s line = []
  · simp [lineReady, h]
  · simp [lineReady, h]

/-- Every line is ready on a ready framebuffer. -/
theorem lineReady_of_ready {s : State} (hs : framebufferReady s = true) (line : BitVec 8) : lineReady s line = true :=
  (lineReady_iff s line).mpr ⟨fbValid_of_ready hs, writeStop_of_ready hs (renderRows_drawable s line).2⟩

/-- RENDER_LINE of a line that is ready runs (R100). -/
theorem execRenderLine_ready {s : State} {line : BitVec 8} (hs : lineReady s line = true) :
    execRenderLine 0 line s = .next (renderedState s line) := by
  obtain ⟨hv, hw⟩ := (lineReady_iff s line).mp hs
  simp [execRenderLine, hv, hw, renderedState]

/-- SET_MODE on a ready framebuffer runs (R120). -/
theorem execSetMode_ready {s : State} (hs : framebufferReady s = true) (mode : Mode) :
    execSetMode 0 mode s = .next (modeSetState s mode) := by
  simp [execSetMode, fbValid_of_ready hs, writeStop_of_ready hs allRows_drawable.2, modeSetState]

/-! ### The effects of an instruction -/

/-- What an instruction that answers a next state can have done to the state. -/
inductive Effect (s : State) : State → Prop where
  /-- Nothing: an ignored write (R128). -/
  | ignored : Effect s s
  /-- A value returned to the host (R67). -/
  | returned (v : Word) : Effect s (returnWord v s)
  /-- A write to FB_BASE (R123). -/
  | fbBase (v : Word) : Effect s (writeFbBase v s)
  /-- A write to SLW[i] (R124). -/
  | slw (i : Fin 40) (v : Word) : Effect s (writeSlw i v s)
  /-- An error of a command other than RENDER_LINE (R143). -/
  | error (cause : Cause) (w : Word) (hc : cause ≠ .none) : Effect s (raiseError cause w s)
  /-- An error of RENDER_LINE, which consumes the scanline (R112, R143). -/
  | renderError (cause : Cause) (w : Word) (hc : cause ≠ .none) : Effect s (consumeScanline (raiseError cause w s))
  /-- SET_INTERLACE (R121). -/
  | interlace (b : Bool) : Effect s (setInterlaceFlag b s)
  /-- END_FRAME with the mark set (R122). -/
  | fullRedraw (hp : s.fullRedrawPending = true) :
      Effect s (setRedrawPending false (setReport 0 destRows s))
  /-- END_FRAME with the mark clear (R122). -/
  | noRedraw (hp : s.fullRedrawPending = false) : Effect s (setReport 0 0 s)
  /-- RENDER_LINE (R100). -/
  | rendered (line : BitVec 8) (hv : s.fbValid = true) (hw : writeStop s (renderRows s line) = none) :
      Effect s (renderedState s line)
  /-- SET_MODE (R120). -/
  | modeSet (mode : Mode) (hv : s.fbValid = true) (hw : writeStop s (List.range destRows) = none) :
      Effect s (modeSetState s mode)

theorem execRenderLine_effect {rsv : BitVec 20} {line : BitVec 8} {s t : State}
    (h : execRenderLine rsv line s = .next t) : Effect s t := by
  rcases execRenderLine_eq_next h with ⟨-, rfl⟩ | ⟨-, -, rfl⟩ | ⟨-, hv, hw, rfl⟩
  · exact .renderError _ _ (by decide)
  · exact .renderError _ _ (by decide)
  · exact .rendered line hv hw

theorem execSetMode_effect {rsv : BitVec 26} {mode : Mode} {s t : State} (h : execSetMode rsv mode s = .next t) :
    Effect s t := by
  rcases execSetMode_eq_next h with ⟨-, rfl⟩ | ⟨-, -, rfl⟩ | ⟨-, hv, hw, rfl⟩
  · exact .error _ _ (by decide)
  · exact .error _ _ (by decide)
  · exact .modeSet mode hv hw

theorem execSetInterlace_effect {rsv : BitVec 27} {en : BitVec 1} {s t : State}
    (h : execSetInterlace rsv en s = .next t) : Effect s t := by
  unfold execSetInterlace at h
  split at h <;> cases h
  · exact .error _ _ (by decide)
  · exact .interlace _

theorem execEndFrame_effect {rsv : BitVec 28} {s t : State} (h : execEndFrame rsv s = .next t) : Effect s t := by
  unfold execEndFrame at h
  split at h
  · cases h; exact .error _ _ (by decide)
  · split at h <;> cases h
    · exact .fullRedraw ‹_›
    · exact .noRedraw (by simp_all)

theorem execWrCmd_effect {w : Word} {s t : State} (h : execWrCmd w s = .next t) : Effect s t := by
  unfold execWrCmd at h
  split at h
  · exact execRenderLine_effect h
  · exact execSetMode_effect h
  · exact execSetInterlace_effect h
  · exact execEndFrame_effect h
  · cases h; exact .error _ _ (by decide)

/-- Every next state of an instruction is one of the effects. -/
theorem exec_effect {i : Instr} {s t : State} (h : exec i s = .next t) : Effect s t := by
  cases i with
  | renderLine rsv line => exact execRenderLine_effect h
  | setMode rsv mode => exact execSetMode_effect h
  | setInterlace rsv en => exact execSetInterlace_effect h
  | endFrame rsv => exact execEndFrame_effect h
  | wrCmd w => exact execWrCmd_effect h
  | rdCmd => cases h; exact .returned _
  | rdStatus => cases h; exact .returned _
  | rdResult => cases h; exact .returned _
  | wrFbBase v => cases h; exact .fbBase v
  | rdFbBase => cases h; exact .returned _
  | rdErrCmd => cases h; exact .returned _
  | wrSlwLow n v => cases h; exact .slw _ v
  | wrSlwHigh n v => cases h; exact .slw _ v
  | wrRoStatus v => cases h; exact .ignored
  | wrRoResult v => cases h; exact .ignored
  | wrRoErrCmd v => cases h; exact .ignored
  | rdWoLow n => cases h; exact .returned _
  | rdWoHigh n => cases h; exact .returned _
  | reserved op offset =>
    cases op with
    | read => cases h; exact .returned _
    | write v => cases h; exact .ignored

/-! ### The step -/

theorem runAccess_effect {a : BusAccess} {s t : State} (h : runAccess a s = .next t) : Effect s t := by
  unfold runAccess at h
  split at h
  · exact exec_effect h
  · cases h

/-- What an event that answers a next state can have done. -/
theorem runEvent_eq_next {e : HostEvent} {s t : State} (h : runEvent e s = .next t) :
    Effect s t ∨ (∃ u watched, Effect s u ∧ t = recordRace s u watched) ∨
    (∃ address b, e = .storeByte address b ∧ t = hostStore address b s) ∨
    (∃ address, e = .loadByte address ∧ t = hostLoad address s) ∨
    (e = .reset ∧ t = blockReset s) := by
  cases e with
  | access a => exact .inl (runAccess_effect h)
  | accessAt address op size furtherBeats =>
    simp only [runEvent] at h
    split at h
    · exact .inl (runAccess_effect h)
    · cases h; exact .inl .ignored
  | raced a watched =>
    simp only [runEvent] at h
    split at h
    · cases h; exact .inr (.inl ⟨_, watched, runAccess_effect ‹_›, rfl⟩)
    · cases h
    · cases h
  | storeByte address b => cases h; exact .inr (.inr (.inl ⟨_, _, rfl, rfl⟩))
  | loadByte address => cases h; exact .inr (.inr (.inr (.inl ⟨_, rfl, rfl⟩)))
  | reset => cases h; exact .inr (.inr (.inr (.inr ⟨rfl, rfl⟩)))

/-- A step that answers a next state is idle, or runs the host's next event. -/
theorem step_eq_next {s t : State} (h : step s = .next t) :
    (s.host = [] ∧ t = s) ∨ ∃ e rest, s.host = e :: rest ∧ runEvent e (setHost rest s) = .next t := by
  unfold step at h
  split at h
  · cases h; exact .inl ⟨‹_›, rfl⟩
  · exact .inr ⟨_, _, ‹_›, h⟩

end Sys2Proof.Machine
end

