-- ==== Sys2Proof/Laws/Window.lean ====
section
/-! SUPPORT. Which accesses at a bus address are accesses to the register window (00_scope.md R11, 10_state.md R22). -/

namespace Sys2Proof.Machine

theorem regBase_toNat (p : Params) : (regBase p).toNat = p.regPage.toNat * 512 := by
  rw [regBase, BitVec.toNat_append]
  simp [Nat.shiftLeft_eq]

/-- An access begins in the window just where its address has the window's page. -/
theorem inWindow_zero (p : Params) (address : BitVec 32) :
    inWindow p address 0 ↔ address.extractLsb' 9 23 = p.regPage := by
  have hbase := regBase_toNat p
  have hpage := p.regPage.isLt
  have haddr := address.isLt
  constructor
  · intro h
    apply BitVec.eq_of_toNat_eq
    simp only [inWindow] at h
    simp only [BitVec.extractLsb'_toNat, Nat.shiftRight_eq_div_pow]
    omega
  · intro h
    have h := congrArg BitVec.toNat h
    simp only [BitVec.extractLsb'_toNat, Nat.shiftRight_eq_div_pow] at h
    simp only [inWindow]
    omega

/-- An access that begins outside the window reaches it just where it reaches the window's first byte. -/
theorem exists_inWindow (p : Params) {address : BitVec 32} (h0 : ¬ inWindow p address 0) (bytes : Nat) :
    (∃ i < bytes, inWindow p address i) ↔ (regBase p - address).toNat < bytes := by
  have hbase := regBase_toNat p
  have hpage := p.regPage.isLt
  have haddr := address.isLt
  rw [BitVec.toNat_sub]
  simp only [inWindow] at *
  constructor
  · rintro ⟨i, hi, h⟩
    omega
  · intro h
    exact ⟨_, h, by omega, by omega⟩

/-- An access is one to the window just where one of its bytes lies there. -/
theorem windowOffset_eq (p : Params) (address : BitVec 32) {bytes : Nat} (hb : 0 < bytes)
    [Decidable (∃ i < bytes, inWindow p address i)] :
    windowOffset p address bytes =
      if ∃ i < bytes, inWindow p address i then some (address.extractLsb' 0 9) else none := by
  by_cases h0 : inWindow p address 0
  · have h1 : ∃ i < bytes, inWindow p address i := ⟨0, hb, h0⟩
    simp only [windowOffset, (inWindow_zero p address).mp h0, true_or, if_true, h1]
  · have h1 : address.extractLsb' 9 23 ≠ p.regPage := fun h => h0 ((inWindow_zero p address).mpr h)
    simp only [windowOffset, h1, false_or, exists_inWindow p h0]

/-- An access of at most four bytes that begins outside the window and reaches into it begins at no multiple of 4. -/
theorem misaligned_of_reaches (p : Params) {address : BitVec 32} (h0 : ¬ inWindow p address 0)
    (h : (regBase p - address).toNat < 4) : (address.extractLsb' 0 9).extractLsb' 0 2 ≠ 0 := by
  have hbase := regBase_toNat p
  have hpage := p.regPage.isLt
  have haddr := address.isLt
  rw [BitVec.toNat_sub] at h
  intro hc
  have hc := congrArg BitVec.toNat hc
  simp only [BitVec.extractLsb'_toNat, Nat.shiftRight_eq_div_pow, inWindow] at *
  simp at hc
  omega

end Sys2Proof.Machine
end

