-- ==== Sys2Proof/Tests/Slice0.lean ====
section
/-! SUPPORT. The model's own tests. Expected values are those of 95_test_vectors.md (a vector's id is named) or are
worked by hand from the rule named. The second part holds a witness for the hypotheses of each obligation. -/

open Sys2Proof Sys2Proof.Machine

namespace Sys2Proof.Tests

/-- The machine of the vectors, reset. -/
def reference : State := State.resetWith referenceParams

/-- The machine of the vectors, with FB_BASE = 0x2000_0000 and a mode. -/
def booted (m : Mode) : State := { reference with fbBase := 0x20000000, fbValid := true, mode := m }

/-- Every SLW register has just been written with the word. -/
def loaded (v : Word) (s : State) : State :=
  { s with slw := Vector.replicate 40 v, slwFresh := Vector.replicate 40 true }

/-- V-R6: `SL[x] = x mod 4`. -/
def ramp (m : Mode) : State := loaded 0x03020100 (booted m)

/-- The state with its parameters changed. -/
def withParams (p : Params) (s : State) : State := { s with params := p }

/-- The state with the host's list of events. -/
def withHost (events : List HostEvent) (s : State) : State := { s with host := events }

/-- A view of the next state, if the outcome is one. -/
def after {α : Type} (o : Host.Outcome State Fault Refusal) (view : State → α) : Option α :=
  match o with
  | .next s => some (view s)
  | _ => none

/-- The refusal, if the outcome is one. -/
def refusal (o : Host.Outcome State Fault Refusal) : Option Refusal :=
  match o with
  | .refused r => some r
  | _ => none

/-- The bytes memory holds, by rising address. -/
def bytes (s : State) : List Byte := s.mem.map Prod.snd

/-- `n` bytes, one after another. -/
def runOf (n : Nat) (b : Byte) : List Byte := List.replicate n b

/-! ### Well-formedness and decoding -/

/-- A word of a command is no `wrCmd`, by its OP alone (R62, R66). -/
theorem test_ill_formed_wrCmd :
    Instr.wellFormed (.wrCmd 0x10000000) = false ∧ Instr.wellFormed (.wrCmd 0x4FFFFFFF) = false ∧
    Instr.wellFormed (.wrCmd 0x0FFFFFFF) = true ∧ Instr.wellFormed (.wrCmd 0x50000000) = true := by decide

/-- A register's offset and a misaligned offset are not reserved ones (R22, R49). -/
theorem test_ill_formed_reserved :
    Instr.wellFormed (.reserved .read 0x000) = false ∧ Instr.wellFormed (.reserved .read 0x010) = false ∧
    Instr.wellFormed (.reserved .read 0x015) = false ∧ Instr.wellFormed (.reserved (.write 0) 0x100) = false ∧
    Instr.wellFormed (.reserved .read 0x19C) = false ∧ Instr.wellFormed (.reserved .read 0x1FE) = false ∧
    Instr.wellFormed (.reserved .read 0x014) = true ∧ Instr.wellFormed (.reserved .read 0x0FC) = true ∧
    Instr.wellFormed (.reserved .read 0x1A0) = true ∧ Instr.wellFormed (.reserved .read 0x1FC) = true := by decide

/-- Two rows of the table match one key only if they are one row. -/
def rowsDisjoint (r q : Row) : Prop := r.pattern &&& (r.mask &&& q.mask) ≠ q.pattern &&& (r.mask &&& q.mask)

/-- No two HOSTBUS rows overlap (R67). -/
theorem test_rows_disjoint : hostbusRows.Pairwise rowsDisjoint := by
  unfold rowsDisjoint
  decide

/-- The commands of P1 and P3, each with a reserved field of V-E1 (R60). -/
theorem test_decode_commands :
    decodeCommand 0x100000C8 = .renderLine 0 200 ∧ decodeCommand 0x10000100 = .renderLine 1 0 ∧
    decodeCommand 0x20000001 = .setMode 0 .fitted ∧ decodeCommand 0x20000002 = .setMode 0 .doubled ∧
    decodeCommand 0x20000004 = .setMode 1 .natural ∧
    decodeCommand 0x30000000 = .setInterlace 0 0 ∧ decodeCommand 0x30000002 = .setInterlace 1 0 ∧
    decodeCommand 0x40000000 = .endFrame 0 ∧ decodeCommand 0x40000001 = .endFrame 1 ∧
    decodeCommand 0x50000000 = .wrCmd 0x50000000 := by decide

/-- The accesses of P1 and P4, and those of V-C5 (R67). -/
theorem test_decode_accesses :
    decode ⟨.write 0x40000000, 0x000, .word, false⟩ = .ok (.endFrame 0) ∧
    decode ⟨.read, 0x000, .word, false⟩ = .ok .rdCmd ∧
    decode ⟨.read, 0x004, .word, false⟩ = .ok .rdStatus ∧
    decode ⟨.read, 0x008, .word, false⟩ = .ok .rdResult ∧
    decode ⟨.write 0x20000002, 0x00C, .word, false⟩ = .ok (.wrFbBase 0x20000002) ∧
    decode ⟨.read, 0x00C, .word, false⟩ = .ok .rdFbBase ∧
    decode ⟨.read, 0x010, .word, false⟩ = .ok .rdErrCmd := by decide

/-- The SLW block, the read-only registers and the reserved offsets, at the ends of their ranges (R22, R67). -/
theorem test_decode_ranges :
    decode ⟨.write 7, 0x100, .word, false⟩ = .ok (.wrSlwLow 0 7) ∧
    decode ⟨.write 7, 0x17C, .word, false⟩ = .ok (.wrSlwLow 31 7) ∧
    decode ⟨.write 7, 0x180, .word, false⟩ = .ok (.wrSlwHigh 0 7) ∧
    decode ⟨.write 7, 0x19C, .word, false⟩ = .ok (.wrSlwHigh 7 7) ∧
    decode ⟨.write 7, 0x1A0, .word, false⟩ = .ok (.reserved (.write 7) 0x1A0) ∧
    decode ⟨.read, 0x114, .word, false⟩ = .ok (.rdWoLow 5) ∧
    decode ⟨.read, 0x190, .word, false⟩ = .ok (.rdWoHigh 4) ∧
    decode ⟨.write 7, 0x004, .word, false⟩ = .ok (.wrRoStatus 7) ∧
    decode ⟨.write 7, 0x008, .word, false⟩ = .ok (.wrRoResult 7) ∧
    decode ⟨.write 7, 0x010, .word, false⟩ = .ok (.wrRoErrCmd 7) ∧
    decode ⟨.read, 0x014, .word, false⟩ = .ok (.reserved .read 0x014) := by decide

/-- Accesses the spec gives no behaviour, each by its name (R151). -/
theorem test_decode_undefined :
    decode ⟨.read, 0x001, .word, false⟩ = .error .misaligned ∧ decode ⟨.read, 0x002, .byte, false⟩ = .error .subWord ∧
    decode ⟨.read, 0x004, .half, false⟩ = .error .subWord ∧ decode ⟨.write 0, 0x100, .word, true⟩ = .error .burst ∧
    decode ⟨.write 0, 0x100, .double, false⟩ = .error .wide := by decide

/-! ### The datapath -/

/-- V-D1. -/
theorem test_mask : ([0x00, 0x01, 0x02, 0x03, 0x04, 0x11, 0x7E, 0xFC, 0xFE, 0xFF] : List Byte).map mask =
    [0, 1, 2, 3, 0, 1, 2, 0, 2, 3] := by decide

/-- `LUT_ref` (R82) by its rows, and V-D2. -/
theorem test_dither :
    (∀ r < 4, ∀ k < 4, dither referenceParams 0 r k = true ∧ dither referenceParams 3 r k = false) ∧
    dither referenceParams 1 48 120 = true ∧ dither referenceParams 1 49 120 = false ∧
    dither referenceParams 1 49 121 = true ∧ dither referenceParams 2 48 120 = true ∧
    dither referenceParams 2 48 121 = false ∧ dither referenceParams 2 49 120 = false ∧
    dither referenceParams 2 239 399 = true := by decide

/-- V-D3: row 48 starts at 0x2000_09C0, 31 emits write nothing, and the 32nd flushes. -/
theorem test_writer :
    beginRow (booted .natural) 48 = ⟨0, 0, 0x200009C0⟩ ∧
    (emitBits referenceParams (List.replicate 31 false) ⟨0, 0, 0x200009C0⟩).1.nb = 31 ∧
    (emitBits referenceParams (List.replicate 31 false) ⟨0, 0, 0x200009C0⟩).2 = [] ∧
    (emitBits referenceParams (List.replicate 32 false) ⟨0, 0, 0x200009C0⟩).1 = ⟨0, 0, 0x200009C4⟩ ∧
    (emitBits referenceParams (List.replicate 32 false) ⟨0, 0, 0x200009C0⟩).2.map Prod.fst =
      [0x200009C0, 0x200009C1, 0x200009C2, 0x200009C3] := by decide +kernel

/-- V-D3: the flush of 0x0000_00EE stores its most significant byte first. -/
theorem test_flush :
    (flush referenceParams ⟨0x000000EE, 32, 0x200009CC⟩).2 =
      [(0x200009CC, 0x00), (0x200009CD, 0x00), (0x200009CE, 0x00), (0x200009CF, 0xEE)] := by decide

/-- V-D3: 52 bytes is no stride of a 64-bit word, whose least stride is 56; it is one of a 16-bit word (R8). -/
theorem test_strides :
    strideBytes referenceParams = 52 ∧
    strideBytes { referenceParams with wordSize := .w64 } = 56 ∧
    strideBytes { referenceParams with wordSize := .w16, extraRowWords := 1 } = 52 ∧
    strideBytes { referenceParams with wordSize := .w16 } = 50 := by decide

/-- V-R1 to V-R4: the rows. -/
theorem test_row_maps :
    [0, 143, 191, 192, 255].map (rowMap .natural) = [[48], [191], [239], [], []] ∧
    [0, 1, 2, 3, 4, 5, 6, 8, 143, 144].map (rowMap .fitted) =
      [[0, 1], [2, 3], [4], [5, 6], [7, 8], [9], [10, 11], [14], [239], []] ∧
    [0, 11, 12, 13, 131, 132].map (rowMap .doubled) = [[], [], [0, 1], [2, 3], [238, 239], []] ∧
    [0, 1, 2, 3, 4, 5, 143, 151, 152].map (rowMap .sliced) =
      [[12], [13], [15], [16], [18], [19], [226], [238], []] := by decide

/-- V-R4: the source pixels of the first image columns and of the last, and the margins beside them. -/
theorem test_sliced_columns :
    [79, 80, 81, 82, 83, 84, 85, 86, 87, 319, 320].map (colMap .sliced) =
      [none, some 0, some 1, some 1, some 2, some 3, some 3, some 4, some 5, some 159, none] := by decide

/-! ### RENDER_LINE and the other commands -/

/-- V-R6: Natural row 48, and nothing else, from 0x2000_09C0. -/
theorem test_renderLine_natural :
    after (exec (.renderLine 0 0) (ramp .natural)) (fun s => (bytes s, s.mem.head?.map Prod.fst, resultWord s)) =
      some (runOf 15 0 ++ runOf 20 0xEE ++ runOf 17 0, some 0x200009C0, 0x00000130) := by decide +kernel

/-- V-R6: Fitted rows 0 and 1, with the pixel bytes of V-R7. -/
theorem test_renderLine_fitted :
    after (exec (.renderLine 0 0) (loaded 0xFFFEFDFC (booted .fitted))) (fun s => (bytes s, resultWord s)) =
      some (runOf 5 0 ++ runOf 40 0xF8 ++ runOf 7 0 ++ (runOf 5 0 ++ runOf 40 0xD4 ++ runOf 7 0), 0x00000200) := by
  decide +kernel

/-- V-R6: Sliced row 13. -/
theorem test_renderLine_sliced :
    after (exec (.renderLine 0 1) (ramp .sliced)) bytes =
      some (runOf 10 0 ++ (List.replicate 10 [0xD3, 0x4D, 0x34]).flatten ++ runOf 12 0) := by decide +kernel

/-- V-R8: Sliced row 12 with SL[159] alone dark. -/
theorem test_renderLine_last_pixel :
    after (exec (.renderLine 0 0) (writeSlw 39 0x03000000 (loaded 0 (booted .sliced)))) bytes =
      some (runOf 10 0 ++ runOf 29 0xFF ++ [0xFC] ++ runOf 12 0) := by decide +kernel

/-- V-R9: a dropped line leaves the framebuffer, reports nothing and is no error. -/
theorem test_renderLine_dropped :
    after (exec (.renderLine 0 200) { ramp .natural with firstRow := 48, rowCount := 1 })
      (fun s => (s.mem, resultWord s, s.err)) = some ([], 0, false) := by decide

/-- R164: a line drawn from a scanline with one register stale records a fault, and a loaded one does not; R112: a
RENDER_LINE, dropped or not, makes every register stale. -/
theorem test_renderLine_stale :
    after (exec (.renderLine 0 0) { ramp .sliced with slwFresh := (Vector.replicate 40 true).set 39 false })
      State.scanlineFault = some true ∧
    after (exec (.renderLine 0 0) (ramp .sliced)) State.scanlineFault = some false ∧
    after (exec (.renderLine 0 200) (ramp .natural)) (fun s => (s.scanlineFault, s.slwFresh)) =
      some (false, Vector.replicate 40 false) := by decide +kernel

/-- R170: a dropped line has no move while the scanline is not reloaded, though the machine steps, and has one where it
is; RENDER 5 of P4, which records cause 3, has one. -/
theorem test_move :
    move (withHost [.access (writeAccess 0x000 0x100000C8)] (booted .natural)) = none ∧
    (move (withHost [.access (writeAccess 0x000 0x100000C8)] (ramp .natural))).isSome = true ∧
    (move (withHost [.access (writeAccess 0x000 0x10000005)] reference)).isSome = true := by decide +kernel

/-- R164: a stale register does not make its neighbours free: with SLW[39] alone stale, Natural row 48 shows the ramp in
the words before column 276, so in its bytes 15 to 31. -/
theorem test_renderLine_stale_pixels :
    after (exec (.renderLine 0 0) { ramp .natural with slwFresh := (Vector.replicate 40 true).set 39 false })
      (fun s => (bytes s).take 32) = some (runOf 15 0 ++ runOf 17 0xEE) := by decide +kernel

/-- V-E1: the reserved field comes before the missing framebuffer, and neither clears the screen. -/
theorem test_setMode_errors :
    after (exec (.setMode 1 .natural) reference) (fun s => (statusWord s, s.errCmd, s.mem)) =
      some (0x00000508, 0x20000004, []) ∧
    after (exec (.setMode 0 .fitted) reference) (fun s => (statusWord s, s.errCmd, s.mem)) =
      some (0x00000708, 0x20000001, []) := by decide

/-- V-E1: RENDER_LINE's errors. -/
theorem test_renderLine_errors :
    after (exec (.renderLine 1 0) (booted .natural)) (fun s => (statusWord s, s.errCmd)) =
      some (0x00000518, 0x10000100) ∧
    after (exec (.renderLine 1 0) reference) (fun s => (statusWord s, s.errCmd)) = some (0x00000508, 0x10000100) ∧
    after (exec (.renderLine 0 5) reference) (fun s => (statusWord s, s.errCmd)) = some (0x00000708, 0x10000005) := by
  decide

/-- V-C4 and V-E1. -/
theorem test_setInterlace :
    after (exec (.setInterlace 0 1) { booted .doubled with fullRedrawPending := false }) statusWord = some 0x00000016 ∧
    after (exec (.setInterlace 0 1) reference) statusWord = some 0x0000000C ∧
    after (exec (.setInterlace 1 0) (booted .natural)) (fun s => (statusWord s, s.errCmd)) =
      some (0x00000518, 0x30000002) := by decide

/-- V-C3 and V-E1. -/
theorem test_endFrame :
    after (exec (.endFrame 0) (booted .doubled)) (fun s => (resultWord s, statusWord s)) =
      some (0x0000F000, 0x00000012) ∧
    after (exec (.endFrame 0) { booted .doubled with fullRedrawPending := false, rowCount := 1 }) resultWord = some 0 ∧
    after (exec (.endFrame 1) (booted .natural)) (fun s => (statusWord s, s.errCmd)) =
      some (0x00000518, 0x40000001) := by decide

/-- V-E1 and V-E2: a reserved OP, and the first error sticks. -/
theorem test_wrCmd :
    after (exec (.wrCmd 0) reference) (fun s => (statusWord s, s.errCmd)) = some (0x00000308, 0x00000000) ∧
    after (exec (.wrCmd 0xF0000000) (booted .natural)) (fun s => (statusWord s, s.errCmd)) =
      some (0x00000318, 0xF0000000) ∧
    after (exec (.renderLine 1 0) { booted .natural with err := true, errCause := .rsvOpcode })
      (fun s => (s.errCause, s.errCmd)) = some (.rsvOpcode, 0) := by decide

/-! ### Register accesses -/

/-- V-C1: the registers right after reset. -/
theorem test_reset : statusWord State.reset = 0x00000008 ∧ resultWord State.reset = 0 ∧ State.reset.fbBase = 0 ∧
    State.reset.errCmd = 0 := by decide

/-- V-C2, and the low bits of a 64-bit word (R26). -/
theorem test_wrFbBase :
    after (exec (.wrFbBase 0x20000003) reference) (fun s => (s.fbBase, statusWord s)) =
      some (0x20000000, 0x00000018) ∧
    after (exec (.wrFbBase 0x2000000F) (withParams { referenceParams with wordSize := .w64 } reference)) State.fbBase =
      some 0x20000008 := by decide

/-- R28: SLW[5] holds the pixels 20..23, least significant byte first, and SLW[39] the last four. -/
theorem test_wrSlw :
    after (exec (.wrSlwLow 5 0x44332211) reference) (fun s => (slByte s 20, slByte s 23)) = some (0x11, 0x44) ∧
    after (exec (.wrSlwHigh 7 0x44332211) reference) (fun s => (slByte s 156, slByte s 159)) = some (0x11, 0x44) := by
  decide

/-- R23 to R28, V-C5: what the reads return. -/
theorem test_reads :
    after (exec .rdStatus (booted .sliced)) State.readData = some 0x0000001B ∧
    after (exec .rdResult { reference with firstRow := 0x12, rowCount := 2 }) State.readData = some 0x00000212 ∧
    after (exec .rdFbBase (booted .natural)) State.readData = some 0x20000000 ∧
    after (exec .rdErrCmd { reference with errCmd := 0x10000100 }) State.readData = some 0x10000100 ∧
    after (exec .rdCmd { reference with readData := 9 }) State.readData = some 0 ∧
    after (exec (.rdWoLow 5) (ramp .natural)) State.readData = some 0 ∧
    after (exec (.rdWoHigh 0) (ramp .natural)) State.readData = some 0 ∧
    after (exec (.reserved .read 0x020) { reference with readData := 9 }) State.readData = some 0 := by decide

/-- V-C5: a write to a read-only register or a reserved offset changes nothing. -/
theorem test_ignored_writes :
    after (exec (.wrRoStatus 0xFFFFFFFF) reference) (· == reference) = some true ∧
    after (exec (.wrRoResult 0xFFFFFFFF) reference) (· == reference) = some true ∧
    after (exec (.wrRoErrCmd 0xFFFFFFFF) reference) (· == reference) = some true ∧
    after (exec (.reserved (.write 0xFFFFFFFF) 0x1A0) reference) (· == reference) = some true := by decide

/-! ### The step -/

/-- A machine whose window is at 0x4000_0000. -/
def windowed : State := withParams { referenceParams with regPage := 0x200000 } reference

/-- A read that begins at a bus address, in beats of a size. -/
def readAt (address : BitVec 32) (size : AccessSize) (furtherBeats : Nat) : State :=
  withHost [.accessAt address .read size furtherBeats] windowed

/-- An access at a bus address of the window reaches the block; one beside it does not (R11). -/
theorem test_step_window :
    after (step (readAt 0x40000004 .word 0)) State.readData = some 0x00000008 ∧
    after (step (readAt 0x40000204 .word 0)) State.readData = some 0 := by decide

/-- An access that begins below the window is refused just where it reaches into it (R49, R151). -/
theorem test_step_straddle :
    refusal (step (readAt 0x3FFFFFFE .word 0)) = some .misalignedAccess ∧
    refusal (step (readAt 0x3FFFFFFC .double 0)) = some .wideAccess ∧
    refusal (step (readAt 0x3FFFFFFF .half 0)) = some .subWordAccess ∧
    refusal (step (readAt 0x3FFFFFF8 .word 2)) = some .burstAccess ∧
    after (step (readAt 0x3FFFFFF8 .word 1)) State.readData = some 0 ∧
    after (step (readAt 0x3FFFFFFF .byte 0)) State.readData = some 0 := by decide

/-- The reset input clears the error and keeps memory (R144, R160). -/
theorem test_step_reset :
    after (step (withHost [.reset] { booted .sliced with err := true, errCause := .noFb, mem := [(5, 6)] }))
      (fun s => (statusWord s, s.mem)) = some (0x00000008, [(5, 6)]) := by decide

/-- A store keeps memory rising, and replaces a byte (R32). -/
theorem test_store :
    Memory.store [(1, 1), (5, 5)] [(3, 3)] = [(1, 1), (3, 3), (5, 5)] ∧
    Memory.store [(1, 1), (5, 5)] [(5, 7), (6, 8)] = [(1, 1), (5, 7), (6, 8)] := by decide

/-- The word placed by the opcode table's numbering is what the next step runs. -/
theorem test_withFetchWord :
    step (State.reset.withFetchWord 16 0x20C) = exec (.wrFbBase 0) State.reset ∧
    step (State.reset.withFetchWord 32 0x10000000) = exec (.renderLine 0 0) State.reset := ⟨rfl, rfl⟩

/-! ### Witnesses: the hypotheses of the obligations can be met -/

/-- DecodeOfEncodeIsInstr. -/
theorem witness_DecodeOfEncodeIsInstr :
    Instr.wellFormed (.renderLine 0xFFFFF 255) = true ∧ Instr.wellFormed (.wrCmd 0xFFFFFFFF) = true ∧
    Instr.wellFormed (.reserved (.write 3) 0x1FC) = true := by decide

/-- EncodeOfDecodeIsAccess. -/
theorem witness_EncodeOfDecodeIsAccess : decode ⟨.write 1, 0x1FC, .word, false⟩ = .ok (.reserved (.write 1) 0x1FC) := by
  decide

/-- StepRunsDecodedInstr. -/
theorem witness_StepRunsDecodedInstr :
    (withHost [.access (readAccess 0x004)] reference).host = .access (readAccess 0x004) :: [] ∧
    decode (readAccess 0x004) = .ok .rdStatus ∧ reference.host = [] := by decide

/-- WindowIsAtRegBase, clause by clause, at both ends of the window: its first and last byte; an access that begins
below and reaches the first byte, one beat before it does not, and one wraps past 2^32 to reach a window at 0; and
accesses beside it. -/
theorem witness_WindowIsAtRegBase :
    ((0x40000000#32).toNat = (regBase windowed.params).toNat + (0x000#9).toNat ∧
      (0x400001FF#32).toNat = (regBase windowed.params).toNat + (0x1FF#9).toNat) ∧
    (¬ inWindow windowed.params 0x3FFFFFFE 0 ∧ ∃ i < accessBytes .word * (0 + 1), inWindow windowed.params 0x3FFFFFFE i) ∧
    (¬ inWindow referenceParams 0xFFFFFFFC 0 ∧ ∃ i < accessBytes .word * (1 + 1), inWindow referenceParams 0xFFFFFFFC i) ∧
    (∀ i < accessBytes .word * (0 + 1), ¬ inWindow windowed.params 0x3FFFFFFC i) ∧
    (∀ i < accessBytes .word * (0 + 1), ¬ inWindow windowed.params 0x40000200 i) ∧
    (readAt 0x3FFFFFFE .word 0).host = .accessAt 0x3FFFFFFE .read .word 0 :: [] := by decide +kernel

/-- UndefinedAccessIsRefused, clause by clause. -/
theorem witness_UndefinedAccessIsRefused :
    refusal (step (withHost [.access ⟨.read, 3, .byte, true⟩] reference)) = some .burstAccess ∧
    refusal (step (withHost [.access ⟨.read, 4, .byte, false⟩] reference)) = some .subWordAccess ∧
    refusal (step (withHost [.access ⟨.read, 4, .half, false⟩] reference)) = some .subWordAccess ∧
    refusal (step (withHost [.access ⟨.read, 4, .double, false⟩] reference)) = some .wideAccess ∧
    refusal (step (withHost [.access ⟨.read, 5, .word, false⟩] reference)) = some .misalignedAccess := by decide

/-- CmdWriteDispatchesOnOp, clause by clause: each OP, and the reserved ones at the ends of their range. -/
theorem witness_CmdWriteDispatchesOnOp :
    (0x1FFFFFFF#32).extractLsb' 28 4 = 0x1 ∧
    ((0x20000003#32).extractLsb' 28 4 = 0x2 ∧ (0x20000003#32).extractLsb' 0 2 = Mode.sliced.toBits) ∧
    (0x30000001#32).extractLsb' 28 4 = 0x3 ∧ (0x4FFFFFFF#32).extractLsb' 28 4 = 0x4 ∧
    (0x0FFFFFFF#32).extractLsb' 28 4 = 0x0 ∧ 0x5 ≤ ((0x50000000#32).extractLsb' 28 4).toNat ∧
    0x5 ≤ ((0xFFFFFFFF#32).extractLsb' 28 4).toNat := by decide

/-- ReadyCommandWordCompletes, for each command. -/
theorem witness_ReadyCommandWordCompletes :
    commandReady 0x1000008F (ramp .natural) = true ∧ commandReady 0x100000FF (booted .natural) = true ∧
    commandReady 0x20000003 (booted .natural) = true ∧
    commandReady 0x30000001 reference = true ∧ commandReady 0x40000000 reference = true := by decide +kernel

/-- ReservedFieldRecordsCauseTwo, each field at its lowest and its highest bit. -/
theorem witness_ReservedFieldRecordsCauseTwo :
    (0x00001#20 ≠ 0 ∧ 0x80000#20 ≠ 0) ∧ (0x0000001#26 ≠ 0 ∧ 0x2000000#26 ≠ 0) ∧
    (0x0000001#27 ≠ 0 ∧ 0x4000000#27 ≠ 0) ∧ (0x0000001#28 ≠ 0 ∧ 0x8000000#28 ≠ 0) := by decide

/-- NoFramebufferRecordsCauseThree. -/
theorem witness_NoFramebufferRecordsCauseThree : State.reset.fbValid = false := rfl

/-- A machine with a recorded error and a command to come. -/
def failed : State :=
  withHost [.access (writeAccess 0x000 0x10000100)] { booted .natural with err := true, errCause := .rsvOpcode }

/-- ErrorIsStickyUntilReset. -/
theorem witness_ErrorIsStickyUntilReset :
    (∃ t, step failed = .next t) ∧ failed.err = true ∧ ∀ rest, failed.host ≠ .reset :: rest :=
  ⟨⟨_, rfl⟩, rfl, fun _ h => by simp [failed, withHost] at h⟩

/-- Memory with nothing listed is canonical. -/
theorem empty_wf : Memory.wf [] := by decide

/-- The framebuffer of the vectors can be drawn. -/
theorem booted_ready (m : Mode) : framebufferReady (booted m) = true := by cases m <;> decide +kernel

/-- ModeSwitchForcesFullRedraw: the first clause, and both cases of the second. -/
theorem witness_ModeSwitchForcesFullRedraw :
    framebufferReady (booted .natural) = true ∧
    after (exec (.setInterlace 0 1) reference) State.fullRedrawPending = some true ∧
    after (exec (.endFrame 0) reference) (fun t => (t.fullRedrawPending, t.rowCount)) = some (false, 240) :=
  ⟨booted_ready _, by decide, by decide⟩

/-- SetModeClearsScreenAndMarks, at the highest region that fits (R46). -/
theorem witness_SetModeClearsScreenAndMarks :
    Memory.wf (booted .natural).mem ∧ framebufferReady (booted .natural) = true ∧
    framebufferReady { booted .natural with fbBase := 0xFFFFCF40 } = true :=
  ⟨empty_wf, booted_ready _, by decide +kernel⟩

/-- RenderLineDrawsItsRows, ReportIsExactlyTheRowsWritten and RenderingAgainWritesTheSame, in every mode, on a line that draws and on one that is dropped. -/
theorem witness_RenderLineDrawsItsRows (m : Mode) :
    Memory.wf (ramp m).mem ∧ lineReady (ramp m) 12 = true ∧ lineReady (ramp m) 255 = true ∧
    interlaceInert (ramp m) = true ∧ rowMap m 12 ≠ [] ∧ rowMap m 255 = [] ∧
    (∃ t, exec (.renderLine 0 12) (ramp m) = .next t) ∧ ∃ t, exec (.renderLine 0 255) (ramp m) = .next t := by
  have ready : ∀ line, lineReady (ramp m) line = true :=
    lineReady_of_ready (s := ramp m) (booted_ready m)
  exact ⟨empty_wf, ready 12, ready 255, rfl, by cases m <;> decide, by cases m <;> decide,
    ⟨_, execRenderLine_ready (ready 12)⟩, ⟨_, execRenderLine_ready (ready 255)⟩⟩

/-- RenderLineDrawsItsRows, where the bus takes the line's own row 48 and rejects the next. -/
theorem witness_RenderLineDrawsItsRows_elsewhere :
    lineReady (withParams { referenceParams with rejected := [(0x200009F4, 1)] } (ramp .natural)) 0 = true ∧
    lineReady (withParams { referenceParams with rejected := [(0x200009F4, 1)] } (ramp .natural)) 1 = false := by
  decide +kernel

/-- UnspecifiedInterlaceStaysInBounds. -/
theorem witness_UnspecifiedInterlaceStaysInBounds :
    interlaceActive { withParams { referenceParams with interlaceEffect := .unspecified } (ramp .natural) with
      interlace := true } = true ∧
    framebufferReady { withParams { referenceParams with interlaceEffect := .unspecified } (ramp .natural) with
      interlace := true } = true := by decide +kernel

/-- StaleScanlineFaults, clause by clause: one register stale, in every mode; a record made; and a record kept by the
reset input. -/
theorem witness_StaleScanlineFaults (m : Mode) :
    scanlineLoaded { ramp m with slwFresh := (Vector.replicate 40 true).set 0 false } = false ∧
    framebufferReady { ramp m with slwFresh := (Vector.replicate 40 true).set 0 false } = true ∧
    after (exec (.wrCmd 0x1000000C) (booted m)) State.scanlineFault = some true ∧
    after (step (withHost [.reset] { booted m with scanlineFault := true })) State.scanlineFault = some true :=
  ⟨by cases m <;> decide +kernel, booted_ready m, by cases m <;> decide +kernel, by cases m <;> decide⟩

/-- BrokenDutyHasNoMove, clause by clause: a stale scanline before a line that draws and before one that is dropped, the
lowest FB_BASE whose region wraps, and duties that are kept, by a plain access, at a bus address and by a raced one. -/
theorem witness_BrokenDutyHasNoMove :
    (dutiesKept (.renderLine 0 0) (booted .natural) = false ∧ dutiesKept (.wrCmd 0x100000C8) (booted .natural) = false ∧
      (booted .natural).fbValid = true ∧ scanlineLoaded (booted .natural) = false) ∧
    (2 ^ 32 < (writeFbBase 0xFFFFCF44 reference).fbBase.toNat + 240 * strideBytes reference.params ∧
      dutiesKept (.wrFbBase 0xFFFFCF43) reference = true) ∧
    dutiesKept (.setMode 0 .sliced) { booted .natural with fbBase := 0xFFFFCF44 } = false ∧
    (dutiesKept (.renderLine 0 0) (ramp .natural) = true ∧ dutiesKept (.renderLine 0 5) reference = true ∧
      (ramp .natural).scanlineFault = false) ∧
    accessOf referenceParams (.access (writeAccess 0x000 0x10000000)) = some (writeAccess 0x000 0x10000000) ∧
    accessOf referenceParams (.accessAt 0 (.write 0x10000000) .word 0) = some (writeAccess 0x000 0x10000000) ∧
    accessOf referenceParams (.raced (writeAccess 0x000 0x10000000) [0]) = some (writeAccess 0x000 0x10000000) ∧
    decode (writeAccess 0x000 0x10000000) = .ok (.renderLine 0 0) := by decide +kernel

/-- DroppedLineWritesNothing, also where the region would wrap. -/
theorem witness_DroppedLineWritesNothing :
    (booted .natural).fbValid = true ∧ interlaceInert { booted .natural with fbBase := 0xFFFFFFFC } = true ∧
    rowMap (booted .natural).mode (192#8).toNat = [] := by decide

/-- UniformScanlineShowsOnePattern: pixel bytes 0x02 and 0xFE are both level 2. -/
theorem witness_UniformScanlineShowsOnePattern :
    (∀ x, mask (slByte (loaded 0xFE02FE02 (booted .fitted)) x) = 2) ∧
    lineReady (loaded 0xFE02FE02 (booted .fitted)) 0 = true :=
  ⟨by decide +kernel, lineReady_of_ready (s := loaded 0xFE02FE02 (booted .fitted)) (booted_ready .fitted) 0⟩

/-- RenderUsesOnlyTheMaskedPixels: V-R6 and V-R7. -/
theorem witness_RenderUsesOnlyTheMaskedPixels :
    ∀ x, (slByte { ramp .natural with slw := Vector.replicate 40 0xFFFEFDFC } x).toNat % 4 =
      (slByte (ramp .natural) x).toNat % 4 := by decide +kernel

/-- RenderIgnoresInterlaceFlag. -/
theorem witness_RenderIgnoresInterlaceFlag : reference.params.interlaceEffect = .ignored := rfl

/-- ScanlineIsWhatTheHostWroteUntilRendered, with one register written and no other. -/
theorem witness_ScanlineIsWhatTheHostWroteUntilRendered :
    (writeSlw 39 5 (booted .natural)).slwFresh[39] = true ∧ ∃ t, exec (.renderLine 1 0) (ramp .natural) = .next t :=
  ⟨by decide, _, rfl⟩

/-- WrappingRegionIsRefused: the lowest FB_BASE whose region wraps; the one below it does not. -/
theorem witness_WrappingRegionIsRefused :
    2 ^ 32 < (0xFFFFCF44#32).toNat + 240 * strideBytes referenceParams ∧
    ¬ 2 ^ 32 < (0xFFFFCF40#32).toNat + 240 * strideBytes referenceParams ∧
    interlaceInert { booted .natural with fbBase := 0xFFFFCF44 } = true ∧ rowMap .natural (0#8).toNat ≠ [] ∧
    refusal (exec (.wrCmd 0x10000000) { booted .natural with fbBase := 0xFFFFCF44 }) = some .framebufferWraps := by decide

/-- RejectedWriteIsRefused: a bus that rejects the last byte of row 48. -/
theorem witness_RejectedWriteIsRefused :
    (0x200009F3, 1) ∈ (withParams { referenceParams with rejected := [(0x200009F3, 1)] } (booted .natural)).params.rejected ∧
    (booted .natural).fbBase.toNat + 240 * strideBytes referenceParams ≤ 2 ^ 32 ∧
    (booted .natural).fbBase.toNat + 48 * strideBytes referenceParams ≤ 0x200009F3 ∧
    0x200009F3 < (booted .natural).fbBase.toNat + (48 + 1) * strideBytes referenceParams ∧
    48 ∈ rowMap .natural (0#8).toNat := by decide

/-- FittedRowMap: lines 0, 142 and 2, 143 on either side of `L mod 3 = 2`, and lines 143 and 144 of the drop. -/
theorem witness_FittedRowMap :
    rowMap .fitted 0 = [0, 1] ∧ rowMap .fitted 142 = [237, 238] ∧ rowMap .fitted 2 = [4] ∧ rowMap .fitted 143 = [239] ∧
    rowMap .fitted 144 = [] := by decide

/-- SlicedRunsCoverTheImage and EachRowIsWrittenByOneLine: the ends of their ranges. -/
theorem witness_SlicedRunsCoverTheImage :
    colMap .sliced (80 + 239) = some 159 ∧ colMap .sliced (80 + 0) = some 0 ∧ 239 ∈ rowMap .fitted 143 ∧
    239 ∈ rowMap .doubled 131 := by decide

/-- FullWordIsFlushedMsbFirst and PartialWordWaitsInAcc. -/
theorem witness_FullWordIsFlushedMsbFirst :
    (List.replicate 32 true).length = wordBits referenceParams ∧
    (List.replicate 31 true).length < wordBits referenceParams ∧ ([] : List Bool).length < wordBits referenceParams := by
  decide

/-- FramebufferDoesNotDependOnWordBits: V-D3's corner case. -/
theorem witness_FramebufferDoesNotDependOnWordBits :
    strideBytes { referenceParams with wordSize := .w16, extraRowWords := 1 } = strideBytes referenceParams := by decide

/-- BlockWritesOnlyItsRegion and FramebufferIsNeverRead: the bytes beside the region, and other contents. -/
theorem witness_BlockWritesOnlyItsRegion :
    (∃ t, exec (.setMode 0 .sliced) (booted .natural) = .next t) ∧ Memory.wf (booted .natural).mem ∧
    Memory.wf [(0x20000000, 7)] ∧ 0x1FFFFFFF < (booted .natural).fbBase.toNat ∧
    (booted .natural).fbBase.toNat + 240 * strideBytes (booted .natural).params ≤ 0x200030C0 :=
  ⟨⟨_, execSetMode_ready (booted_ready .natural) .sliced⟩, empty_wf, by decide,
    by decide, by decide⟩

/-- StatusFieldsHaveTheirWriters: each field changes somewhere. -/
theorem witness_StatusFieldsHaveTheirWriters :
    (∃ t, exec (.setMode 0 .sliced) { booted .natural with fullRedrawPending := false } = .next t ∧
      t.mode ≠ .natural ∧ t.fullRedrawPending ≠ false) ∧
    after (exec (.setInterlace 0 1) reference) State.interlace = some (!reference.interlace) ∧
    after (exec (.endFrame 0) reference) State.fullRedrawPending = some (!reference.fullRedrawPending) ∧
    after (exec (.wrFbBase 0x20000000) reference) (fun t => (t.fbValid, t.fbBase)) = some (true, 0x20000000) ∧
    after (exec (.wrCmd 0xF0000000) reference) (fun t => (t.err, t.errCause, t.errCmd)) =
      some (true, .rsvOpcode, 0xF0000000) :=
  ⟨⟨_, execSetMode_ready (s := { booted .natural with fullRedrawPending := false }) (booted_ready .natural) .sliced,
    by decide, by decide⟩, by decide, by decide, by decide, by decide⟩

/-- The invariant holds in the machine of the vectors. -/
theorem booted_inv (m : Mode) : Inv (booted m) where
  memCanonical := empty_wf
  writerIdle := ⟨rfl, rfl⟩
  fbBaseAligned := by cases m <;> decide
  fbBaseUnset := fun h => by simp [booted] at h
  errorAbsent := fun _ => ⟨rfl, rfl⟩
  errorCaused := fun h => by simp [booted, reference, State.resetWith] at h
  emptyReport := fun _ => rfl
  reportInside := by cases m <;> decide
  reportCount := .inl (by cases m <;> decide)

/-- StepKeepsInvariant and StepKeepsParameters. -/
theorem witness_StepKeepsInvariant :
    Inv (booted .sliced) ∧ (booted .sliced).host = [] ∧ step (booted .sliced) = .next (booted .sliced) ∧
    ∃ t, step (withHost [.access (writeAccess 0x000 0x20000003)] (booted .natural)) = .next t :=
  ⟨booted_inv _, rfl, rfl, _, execSetMode_ready (booted_ready .natural) .sliced⟩

/-- ResetLeavesStatedValues. -/
theorem witness_ResetLeavesStatedValues :
    (withHost [.reset] (booted .sliced)).host = .reset :: [] ∧ ∃ t, step (withHost [.reset] (booted .sliced)) = .next t :=
  ⟨rfl, _, rfl⟩

/-- HostStoreThenLoad, at the top of the address space. -/
theorem witness_HostStoreThenLoad :
    Memory.wf reference.mem ∧
    after (step (withHost [.storeByte 0xFFFFFFFF 7, .loadByte 0xFFFFFFFF] reference)) (fun t => (t.host, t.mem)) =
      some ([.loadByte 0xFFFFFFFF], [(0xFFFFFFFF, 7)]) := ⟨empty_wf, by decide⟩

/-- RacedReadsAreOldOrNew, clause by clause: an access that completes and one that is refused. -/
theorem witness_RacedReadsAreOldOrNew :
    (∃ t, step (withHost [.raced (writeAccess 0x000 0x40000000) [0x20000000]] (booted .natural)) = .next t) ∧
    (∃ u, step (withHost [.access (writeAccess 0x000 0x40000000)] (booted .natural)) = .next u) ∧
    refusal (step (withHost [.access ⟨.read, 1, .word, false⟩] (booted .natural))) = some .misalignedAccess :=
  ⟨⟨_, rfl⟩, ⟨_, rfl⟩, by decide⟩

end Sys2Proof.Tests
end

section
/-! SUPPORT. The step on an event, and what an access that is no instruction, or that begins at a bus address, does
(20_memory.md R49, 60_exceptions.md R151, 00_scope.md R11). -/

namespace Sys2Proof.Machine

/-- A step runs the first of the host's events, on the state without it (10_state.md R20). -/
theorem step_of_host {s : State} {e : HostEvent} {rest : List HostEvent} (h : s.host = e :: rest) :
    step s = runEvent e (setHost rest s) := by
  simp only [step, h]

/-! ### Accesses that are no instruction -/

theorem runAccess_burst {a : BusAccess} (s : State) (hb : a.burst = true) :
    runAccess a s = .refused .burstAccess := by
  simp [runAccess, decode, hb, refusalOf]

theorem runAccess_subWord {a : BusAccess} (s : State) (hb : a.burst = false) (hs : a.size = .byte ∨ a.size = .half) :
    runAccess a s = .refused .subWordAccess := by
  rcases hs with hs | hs <;> simp [runAccess, decode, hb, hs, refusalOf]

theorem runAccess_wide {a : BusAccess} (s : State) (hb : a.burst = false) (hs : a.size = .double) :
    runAccess a s = .refused .wideAccess := by
  simp [runAccess, decode, hb, hs, refusalOf]

theorem runAccess_misaligned {a : BusAccess} (s : State) (hb : a.burst = false) (hs : a.size = .word)
    (ho : a.offset.extractLsb' 0 2 ≠ 0) : runAccess a s = .refused .misalignedAccess := by
  have hd : decode a = .error .misaligned := by
    simp only [decode, hb, hs, if_pos ho]
    rfl
  rw [runAccess, hd]
  rfl

/-! ### Accesses at a bus address -/

theorem accessBytes_pos (size : AccessSize) : 0 < accessBytes size := by
  cases size <;> decide

theorem windowOffset_of_reaches {p : Params} {address : BitVec 32} {bytes : Nat}
    (h : ∃ i < bytes, inWindow p address i) : windowOffset p address bytes = some (address.extractLsb' 0 9) := by
  have hb : 0 < bytes := by
    obtain ⟨i, hi, -⟩ := h
    omega
  rw [windowOffset_eq p address hb, if_pos h]

theorem windowOffset_of_misses {p : Params} {address : BitVec 32} {bytes : Nat} (hb : 0 < bytes)
    (h : ∀ i < bytes, ¬ inWindow p address i) : windowOffset p address bytes = none := by
  rw [windowOffset_eq p address hb, if_neg]
  rintro ⟨i, hi, hw⟩
  exact h i hi hw

/-- An access at an offset of the window is the access to that offset (R11, R67). -/
theorem windowOffset_at {p : Params} {address : BitVec 32} {offset : BitVec 9} {bytes : Nat} (hb : 0 < bytes)
    (h : address.toNat = (regBase p).toNat + offset.toNat) : windowOffset p address bytes = some offset := by
  have hbase := regBase_toNat p
  have hw : inWindow p address 0 := by
    simp only [inWindow]
    omega
  have ho : address.extractLsb' 0 9 = offset := by
    apply BitVec.eq_of_toNat_eq
    simp only [BitVec.extractLsb'_toNat, Nat.shiftRight_zero]
    omega
  rw [windowOffset_of_reaches ⟨0, hb, hw⟩, ho]

/-- The name under which an access of one beat of a size is refused where it is not aligned (R49, R151). -/
def unalignedRefusal : AccessSize → Refusal
  | .byte => .subWordAccess
  | .half => .subWordAccess
  | .word => .misalignedAccess
  | .double => .wideAccess

/-- An access that begins outside the window and reaches into it is refused: a 32-bit one of a single beat is
misaligned, and every other is undefined by its size or its beats (R49, R151). -/
theorem runAccess_of_reaches (s : State) (op : BusOp) (size : AccessSize) (furtherBeats : Nat) {address : BitVec 32}
    (h0 : ¬ inWindow s.params address 0)
    (h : ∃ i < accessBytes size * (furtherBeats + 1), inWindow s.params address i) :
    runAccess ⟨op, address.extractLsb' 0 9, size, decide (furtherBeats ≠ 0)⟩ s =
      .refused (if furtherBeats ≠ 0 then .burstAccess else unalignedRefusal size) := by
  by_cases hb : furtherBeats = 0
  · subst hb
    cases size with
    | byte => exact runAccess_subWord s rfl (.inl rfl)
    | half => exact runAccess_subWord s rfl (.inr rfl)
    | word =>
      have hnear := (exists_inWindow s.params h0 _).mp h
      exact runAccess_misaligned s rfl rfl (misaligned_of_reaches s.params h0 hnear)
    | double => exact runAccess_wide s rfl rfl
  · rw [if_pos hb]
    exact runAccess_burst s (by simpa using hb)

end Sys2Proof.Machine
end

section
/-! SUPPORT. Every effect keeps the parameters (10_state.md R29). -/

namespace Sys2Proof.Machine

theorem Effect.params_eq {s t : State} (h : Effect s t) : t.params = s.params := by
  cases h <;> simp [renderedState, modeSetState, clearScreen]

theorem runEvent_params {e : HostEvent} {s t : State} (h : runEvent e s = .next t) : t.params = s.params := by
  rcases runEvent_eq_next h with he | ⟨u, watched, he, rfl⟩ | ⟨address, b, -, rfl⟩ | ⟨address, -, rfl⟩ | ⟨-, rfl⟩
  · exact he.params_eq
  · exact he.params_eq
  · exact hostStore_params address b s
  · exact hostLoad_params address s
  · exact blockReset_params s

end Sys2Proof.Machine
end

section
/-! SUPPORT. The state after a RENDER_LINE that runs, read off the rows it reports (41_render.md R100, R110, R112). -/

namespace Sys2Proof.Machine

/-! ### Spans of rows -/

theorem ShortSpan.mem_iff {rows : List Nat} (h : ShortSpan rows) (r : Nat) :
    r ∈ rows ↔ rows.headD 0 ≤ r ∧ r < rows.headD 0 + rows.length := by
  obtain ⟨hspan, -, -⟩ := h
  conv_lhs => rw [hspan]
  exact List.mem_range'_1

/-- The row after the last one of a span. -/
theorem ShortSpan.getLastD_succ {rows : List Nat} (h : ShortSpan rows) (hne : rows ≠ []) :
    rows.getLastD 0 + 1 = rows.headD 0 + rows.length := by
  obtain ⟨hspan, hlen, -⟩ := h
  match rows, hne with
  | [r], _ => rfl
  | [r, q], _ =>
    have hq : q = r + 1 := by simpa [List.range'] using hspan
    simp [hq]
  | _ :: _ :: _ :: _, _ =>
    simp only [List.length_cons] at hlen
    omega

/-! ### The report -/

variable (s : State) (line : BitVec 8)

theorem renderedState_firstRow_toNat : (renderedState s line).firstRow.toNat = (renderRows s line).headD 0 := by
  obtain ⟨-, -, hend⟩ := renderRows_shortSpan s line
  simp only [renderedState, consumeScanline_firstRow, recordScanlineFault_firstRow, reportRows_firstRow,
    BitVec.toNat_ofNat]
  omega

theorem renderedState_rowCount_toNat : (renderedState s line).rowCount.toNat = (renderRows s line).length := by
  obtain ⟨-, hlen, -⟩ := renderRows_shortSpan s line
  simp only [renderedState, consumeScanline_rowCount, recordScanlineFault_rowCount, reportRows_rowCount,
    BitVec.toNat_ofNat]
  omega

theorem renderedState_rowCount_eq_zero : (renderedState s line).rowCount = 0 ↔ renderRows s line = [] := by
  rw [← BitVec.toNat_inj, renderedState_rowCount_toNat]
  exact List.length_eq_zero_iff

/-- The rows written are those reported (R110). -/
theorem mem_renderRows_iff_reported (r : Nat) :
    r ∈ renderRows s line ↔ (renderedState s line).firstRow.toNat ≤ r ∧
      r < (renderedState s line).firstRow.toNat + (renderedState s line).rowCount.toNat := by
  rw [renderedState_firstRow_toNat, renderedState_rowCount_toNat]
  exact (renderRows_shortSpan s line).mem_iff r

/-! ### The other fields -/

/-- The writer is as it was where no row is written, and idle after the last reported row otherwise (R83, R87). -/
theorem renderedState_writer :
    (renderedState s line).writer =
      if (renderedState s line).rowCount = 0 then s.writer
      else ⟨0, 0, s.fbBase + BitVec.ofNat 32
        (((renderedState s line).firstRow.toNat + (renderedState s line).rowCount.toNat) *
          strideBytes s.params)⟩ := by
  have hw : (renderedState s line).writer = (writeRows s (renderBit s line) (renderRows s line) s.writer).1 := rfl
  by_cases h : renderRows s line = []
  · rw [if_pos ((renderedState_rowCount_eq_zero s line).mpr h), hw, h, writeRows]
  · rw [if_neg (mt (renderedState_rowCount_eq_zero s line).mp h), hw, writeRows_writer _ _ h,
      (renderRows_shortSpan s line).getLastD_succ h, renderedState_firstRow_toNat, renderedState_rowCount_toNat]

/-- A stale read is recorded where a row is drawn from a scanline that is not loaded (R164). -/
theorem renderedState_scanlineFault :
    (renderedState s line).scanlineFault =
      (s.scanlineFault || (decide ((renderedState s line).rowCount ≠ 0) && !scanlineLoaded s)) := by
  have hf : (renderedState s line).scanlineFault = (s.scanlineFault || readsStale s (renderRows s line)) := rfl
  have hzero := renderedState_rowCount_eq_zero s line
  by_cases h : renderRows s line = []
  · rw [hf, decide_eq_false (not_not.mpr (hzero.mpr h)), h, readsStale_nil, Bool.false_and]
  · rw [hf, decide_eq_true (mt hzero.mp h), readsStale, List.isEmpty_eq_false_iff.mpr h, Bool.not_false]

/-- Only the report, the scanline's freshness, the counter, memory, the record of a stale read and the writer change
(R100, R112). -/
theorem renderedState_eq :
    renderedState s line = { s with
      firstRow := (renderedState s line).firstRow
      rowCount := (renderedState s line).rowCount
      slwFresh := Vector.replicate 40 false
      freeCtr := s.freeCtr + 1
      mem := (renderedState s line).mem
      scanlineFault := (renderedState s line).scanlineFault
      writer := (renderedState s line).writer } := rfl

/-! ### Memory -/

variable {s} (hf : regionFits s = true) (hm : Memory.wf s.mem)
include hf hm

/-- Every column of a written row holds the bit drawn there (R42, R86). -/
theorem renderedState_pixel {r k : Nat} (hr : r ∈ renderRows s line) (hk : k < 8 * strideBytes s.params) :
    framebufferPixel (renderedState s line) r k = some (renderBit s line r k) :=
  drawRows_pixel s hf (renderBit s line) (renderRows_drawable s line) hm.1 hr hk

/-- Every byte outside the written rows reads as before (R41, R86). -/
theorem renderedState_read_other {a : Nat}
    (ha : ∀ r ∈ renderRows s line, a < rowStart s r ∨ rowStart s (r + 1) ≤ a) :
    (renderedState s line).mem.read a = s.mem.read a :=
  drawRows_read_other s hf (renderBit s line) (renderRows_drawable s line) hm.1 fun r hr => by
    rw [rowStart_add_stride]
    exact ha r hr

/-- Every byte before the first reported row, and every byte after the last, reads as before (R41, R110). -/
theorem renderedState_read_outside_report {a : Nat}
    (ha : a < rowStart s (renderedState s line).firstRow.toNat ∨
      rowStart s ((renderedState s line).firstRow.toNat + (renderedState s line).rowCount.toNat) ≤ a) :
    (renderedState s line).mem.read a = s.mem.read a := by
  refine renderedState_read_other line hf hm fun r hr => ?_
  obtain ⟨hfirst, hlast⟩ := (mem_renderRows_iff_reported s line r).mp hr
  exact ha.imp (fun h => Nat.lt_of_lt_of_le h (rowStart_mono s hfirst)) (Nat.le_trans (rowStart_mono s hlast))

end Sys2Proof.Machine
end

section
/-! SUPPORT. A change to the state that a command does not see commutes with the command: one that keeps what decides
whether and where RENDER_LINE or SET_MODE writes, and that its parts pass through. -/

namespace Sys2Proof.Machine

/-- RENDER_LINE commutes with a change to the state that its stops, its error and its effect commute with (R100). -/
theorem execRenderLine_map (f : State → State) (rsv : BitVec 20) (line : BitVec 8) (s : State)
    (hvalid : (f s).fbValid = s.fbValid)
    (hstop : writeStop (f s) (renderRows (f s) line) = writeStop s (renderRows s line))
    (herror : ∀ cause w,
      consumeScanline (raiseError cause w (f s)) = f (consumeScanline (raiseError cause w s)))
    (hrendered : renderedState (f s) line = f (renderedState s line)) :
    execRenderLine rsv line (f s) = mapNext f (execRenderLine rsv line s) := by
  simp only [renderedState] at hrendered
  simp only [execRenderLine, hvalid, hstop, herror, hrendered]
  split
  · rfl
  · split
    · rfl
    · split <;> rfl

/-- SET_MODE commutes with a change to the state that its stops, its error and its effect commute with (R120). -/
theorem execSetMode_map (f : State → State) (rsv : BitVec 26) (mode : Mode) (s : State)
    (hvalid : (f s).fbValid = s.fbValid)
    (hstop : writeStop (f s) (List.range destRows) = writeStop s (List.range destRows))
    (herror : ∀ cause w, raiseError cause w (f s) = f (raiseError cause w s))
    (hset : modeSetState (f s) mode = f (modeSetState s mode)) :
    execSetMode rsv mode (f s) = mapNext f (execSetMode rsv mode s) := by
  simp only [modeSetState] at hset
  simp only [execSetMode, hvalid, hstop, herror, hset]
  split
  · rfl
  · split
    · rfl
    · split <;> rfl

/-- Where a command stops depends on the stride, the rejected writes and FB_BASE alone (R46, R151). -/
theorem writeStop_congr {s t : State} (hp : strideBytes t.params = strideBytes s.params)
    (hr : t.params.rejected = s.params.rejected) (hb : t.fbBase = s.fbBase) (rows : List Nat) :
    writeStop t rows = writeStop s rows := by
  have hrejected : rowRejected t = rowRejected s := by
    funext r
    simp only [rowRejected, hp, hr, hb]
  have hfits : regionFits t = regionFits s := by
    simp only [regionFits, hp, hb]
  rw [writeStop, writeStop, hfits, hrejected]

/-! ### The interlace flag -/

theorem raiseError_setInterlaceFlag (b : Bool) (cause : Cause) (w : Word) (s : State) :
    raiseError cause w (setInterlaceFlag b s) = setInterlaceFlag b (raiseError cause w s) := by
  simp only [raiseError, setInterlaceFlag_err, apply_ite (setInterlaceFlag b)]
  rfl

theorem drawRows_setInterlaceFlag (b : Bool) (s : State) (bit : Nat → Nat → Bool) (rows : List Nat) :
    drawRows (setInterlaceFlag b s) bit rows = setInterlaceFlag b (drawRows s bit rows) := by
  simp only [drawRows, writeRows_congr (s := s) (t := setInterlaceFlag b s) rfl rfl]
  rfl

/-- Under the reference effect the flag is never one with an unspecified effect (00_scope.md R13). -/
theorem interlaceActive_of_ignored {s : State} (h : s.params.interlaceEffect = .ignored) :
    interlaceActive s = false := by
  simp [interlaceActive, h]

section
variable {s : State} (h : s.params.interlaceEffect = .ignored)
include h

theorem renderRows_setInterlaceFlag (b : Bool) (line : BitVec 8) :
    renderRows (setInterlaceFlag b s) line = renderRows s line := by
  simp only [renderRows, interlaceActive_of_ignored h, interlaceActive_of_ignored (s := setInterlaceFlag b s) h]
  rfl

theorem renderBit_setInterlaceFlag (b : Bool) (line : BitVec 8) :
    renderBit (setInterlaceFlag b s) line = renderBit s line := by
  funext r k
  simp only [renderBit, interlaceActive_of_ignored h, interlaceActive_of_ignored (s := setInterlaceFlag b s) h]
  rfl

theorem renderedState_setInterlaceFlag (b : Bool) (line : BitVec 8) :
    renderedState (setInterlaceFlag b s) line = setInterlaceFlag b (renderedState s line) := by
  simp only [renderedState, renderRows_setInterlaceFlag h, renderBit_setInterlaceFlag h, drawRows_setInterlaceFlag]
  rfl

/-- Under the reference effect RENDER_LINE does not see the flag (R13, R111). -/
theorem execRenderLine_setInterlaceFlag (b : Bool) (rsv : BitVec 20) (line : BitVec 8) :
    execRenderLine rsv line (setInterlaceFlag b s) = mapNext (setInterlaceFlag b) (execRenderLine rsv line s) := by
  refine execRenderLine_map (setInterlaceFlag b) rsv line s rfl ?_ ?_ (renderedState_setInterlaceFlag h b line)
  · rw [renderRows_setInterlaceFlag h]
    exact writeStop_congr (s := s) (t := setInterlaceFlag b s) rfl rfl rfl _
  · intro cause w
    rw [raiseError_setInterlaceFlag]
    rfl

end

/-! ### The word size -/

/-- The state with other parameters. -/
def setParams (q : Params) (s : State) : State := { s with params := q }

/-- The parameters with another word size and number of extra words. -/
def withWordSize (p : Params) (size : WordSize) (extra : Nat) : Params :=
  { p with wordSize := size, extraRowWords := extra }

theorem raiseError_setParams (q : Params) (cause : Cause) (w : Word) (s : State) :
    raiseError cause w (setParams q s) = setParams q (raiseError cause w s) := by
  have herr : (setParams q s).err = s.err := rfl
  simp only [raiseError, herr, apply_ite (setParams q)]
  rfl

/-- Drawing sees the stride alone of the parameters (R42). -/
theorem drawRows_setParams {q : Params} {s : State} (hq : strideBytes q = strideBytes s.params)
    (bit : Nat → Nat → Bool) (rows : List Nat) :
    drawRows (setParams q s) bit rows = setParams q (drawRows s bit rows) := by
  simp only [drawRows, writeRows_congr (s := s) (t := setParams q s) hq rfl]
  rfl

section
variable {s : State} {size : WordSize} {extra : Nat}
  (hq : strideBytes (withWordSize s.params size extra) = strideBytes s.params)
include hq

theorem writeStop_setParams (rows : List Nat) :
    writeStop (setParams (withWordSize s.params size extra) s) rows = writeStop s rows :=
  writeStop_congr (s := s) (t := setParams (withWordSize s.params size extra) s) hq rfl rfl rows

theorem renderedState_setParams (line : BitVec 8) :
    renderedState (setParams (withWordSize s.params size extra) s) line =
      setParams (withWordSize s.params size extra) (renderedState s line) := by
  have hrows : renderRows (setParams (withWordSize s.params size extra) s) line = renderRows s line := rfl
  have hbit : renderBit (setParams (withWordSize s.params size extra) s) line = renderBit s line := rfl
  simp only [renderedState, hrows, hbit, drawRows_setParams hq]
  rfl

theorem modeSetState_setParams (mode : Mode) :
    modeSetState (setParams (withWordSize s.params size extra) s) mode =
      setParams (withWordSize s.params size extra) (modeSetState s mode) :=
  congrArg (setRedrawPending true)
    (drawRows_setParams (s := selectMode mode s) hq (clearBit (selectMode mode s)) (List.range destRows))

/-- RENDER_LINE does not see the word size, for one stride (R7, R42). -/
theorem execRenderLine_setParams (rsv : BitVec 20) (line : BitVec 8) :
    execRenderLine rsv line (setParams (withWordSize s.params size extra) s) =
      mapNext (setParams (withWordSize s.params size extra)) (execRenderLine rsv line s) := by
  refine execRenderLine_map _ rsv line s rfl (writeStop_setParams hq _) ?_ (renderedState_setParams hq line)
  intro cause w
  rw [raiseError_setParams]
  rfl

/-- SET_MODE does not see the word size, for one stride (R7, R42). -/
theorem execSetMode_setParams (rsv : BitVec 26) (mode : Mode) :
    execSetMode rsv mode (setParams (withWordSize s.params size extra) s) =
      mapNext (setParams (withWordSize s.params size extra)) (execSetMode rsv mode s) :=
  execSetMode_map _ rsv mode s rfl (writeStop_setParams hq _)
    (fun cause w => raiseError_setParams _ cause w s) (modeSetState_setParams hq mode)

end

end Sys2Proof.Machine
end

section
/-! SUPPORT. The obligations that rest on 00_scope.md. -/

namespace Sys2Proof.Machine

/-- Settles O6: which bytes of the access lie in the window decides what `windowOffset` answers. -/
theorem windowIsAtRegBase : Obligations.WindowIsAtRegBase := by
  intro s op size furtherBeats address rest hhost
  have hbytes : 0 < accessBytes size * (furtherBeats + 1) :=
    Nat.mul_pos (accessBytes_pos size) (Nat.succ_pos furtherBeats)
  rw [step_of_host hhost]
  refine ⟨fun offset hoffset => ?_, fun houtside hreach => ?_, fun hmiss => ?_⟩
  · simp only [runEvent, setHost_params, windowOffset_at hbytes hoffset]
    rfl
  · simp only [runEvent, setHost_params, windowOffset_of_reaches hreach]
    exact runAccess_of_reaches (setHost rest s) op size furtherBeats houtside hreach
  · simp only [runEvent, setHost_params, windowOffset_of_misses hbytes hmiss]
    rfl

/-- Settles O18: the rows written are a short span whatever the effect is, and the report gives that span. -/
theorem unspecifiedInterlaceStaysInBounds : Obligations.UnspecifiedInterlaceStaysInBounds := by
  intro s line hmem hready _
  have hfits := regionFits_of_ready hready
  obtain ⟨-, hlen, hend⟩ := renderRows_shortSpan s line
  refine ⟨renderedState s line, execRenderLine_ready (lineReady_of_ready hready line), ?_, ?_, ?_, ?_, ?_⟩
  · rw [← renderedState_scanlineFault, ← renderedState_writer]
    exact renderedState_eq s line
  · rwa [renderedState_rowCount_toNat]
  · rwa [renderedState_firstRow_toNat, renderedState_rowCount_toNat]
  · intro r k hfirst hlast hk
    have hr := (mem_renderRows_iff_reported s line r).mpr ⟨hfirst, hlast⟩
    rw [renderedState_pixel line hfits hmem hr hk]
    rfl
  · intro a ha
    exact renderedState_read_outside_report line hfits hmem ha

/-- Settles O26: under the reference effect neither the rows nor the bits of a line depend on the flag. -/
theorem renderIgnoresInterlaceFlag : Obligations.RenderIgnoresInterlaceFlag :=
  fun _ b rsv line h => execRenderLine_setInterlaceFlag h b rsv line

/-- Settles O34, from the closed form of each mode's column map. -/
theorem columnMaps : Obligations.ColumnMaps := by
  refine ⟨fun k x => ?_, fun k x => ?_, colMap_doubled, fun k x => ?_⟩
  · rw [colMap_natural]
    split <;> simp [Fin.ext_iff] <;> omega
  · rw [colMap_fitted, Nat.shiftRight_eq_div_pow]
    split <;> simp [Fin.ext_iff] <;> omega
  · rw [colMap_sliced]
    split <;> simp [Fin.ext_iff] <;> omega

/-- Settles O41: what a row writes depends on the stride and not on the word size. -/
theorem framebufferDoesNotDependOnWordBits : Obligations.FramebufferDoesNotDependOnWordBits := by
  rintro s size extra i hstride (⟨rsv, line, rfl⟩ | ⟨rsv, mode, rfl⟩)
  · exact execRenderLine_setParams hstride rsv line
  · exact execSetMode_setParams hstride rsv mode

/-- Settles O51: an idle step and each of the host's events keep the parameters. -/
theorem stepKeepsParameters : Obligations.StepKeepsParameters := by
  intro s t h
  rcases step_eq_next h with ⟨-, rfl⟩ | ⟨e, rest, -, hrun⟩
  · rfl
  · exact (runEvent_params hrun).trans (setHost_params rest s)

end Sys2Proof.Machine
end

section
/-! SUPPORT. Which operations of the state keep the invariant: those that change none of its fields, and those that give
them values it allows (10_state.md R24 to R27, R30). -/

namespace Sys2Proof.Machine

/-! ### The low bits of FB_BASE -/

/-- The machine word has a power of two of bytes (R7). -/
theorem wordBytes_eq_two_pow (p : Params) : ∃ k, wordBytes p = 2 ^ k := by
  rcases wordBytes_cases p with h | h | h
  · exact ⟨1, h⟩
  · exact ⟨2, h⟩
  · exact ⟨3, h⟩

/-- A write to FB_BASE keeps the bits from log2(WORD_BYTES) up and clears those below (R26, R123). -/
theorem writeFbBase_fbBase_getLsbD (v : Word) (s : State) {b : Nat} (hb : b < 32) :
    (writeFbBase v s).fbBase.getLsbD b = (v.getLsbD b && decide (wordBytes s.params ≤ 2 ^ b)) := by
  obtain ⟨k, hk⟩ := wordBytes_eq_two_pow s.params
  have hpow : 2 ^ k ≤ 2 ^ b ↔ ¬ b < k := by
    rw [Nat.pow_le_pow_iff_right (by decide), Nat.not_lt]
  simp only [writeFbBase_fbBase, hk, BitVec.getLsbD_and, BitVec.getLsbD_not, BitVec.getLsbD_ofNat,
    Nat.testBit_two_pow_sub_one, hb, decide_true, Bool.true_and, hpow, decide_not]

/-- A write to FB_BASE leaves an address that is a multiple of WORD_BYTES (R26). -/
theorem writeFbBase_fbBase_aligned (v : Word) (s : State) :
    (writeFbBase v s).fbBase.toNat % wordBytes s.params = 0 := by
  obtain ⟨k, hk⟩ := wordBytes_eq_two_pow s.params
  rw [hk]
  refine Nat.eq_of_testBit_eq fun b => ?_
  rw [Nat.testBit_mod_two_pow, Nat.zero_testBit, BitVec.testBit_toNat]
  by_cases hlow : b < k ∧ b < 32
  · have hbit := writeFbBase_fbBase_getLsbD v s hlow.2
    have hpow : ¬ 2 ^ k ≤ 2 ^ b := Nat.not_le.mpr (Nat.pow_lt_pow_right (by decide) hlow.1)
    rw [hbit, hk, decide_eq_false hpow, Bool.and_false, Bool.and_false]
  · rcases not_and_or.mp hlow with h | h
    · rw [decide_eq_false h, Bool.false_and]
    · rw [BitVec.getLsbD_of_ge _ _ (Nat.not_lt.mp h), Bool.and_false]

/-! ### Operations -/

/-- A report that RESULT may hold: a span of at most two destination rows, or all of them, which begins at 0 where it is
empty (R25). -/
abbrev LegalReport (first count : Nat) : Prop :=
  (count = 0 → first = 0) ∧ first + count ≤ destRows ∧ (count ≤ 2 ∨ count = destRows)

theorem ShortSpan.legalReport {rows : List Nat} (h : ShortSpan rows) : LegalReport (rows.headD 0) rows.length := by
  obtain ⟨-, hlen, hend⟩ := h
  refine ⟨fun hnil => ?_, hend, .inl hlen⟩
  rw [List.length_eq_zero_iff.mp hnil]
  rfl

namespace Inv

variable {s : State} (h : Inv s)
include h

/-! These change no field that the invariant names. -/

theorem setHost (events : List HostEvent) : Inv (setHost events s) := { h with }
theorem returnWord (v : Word) : Inv (returnWord v s) := { h with }
theorem writeSlw (i : Fin 40) (v : Word) : Inv (writeSlw i v s) := { h with }
theorem selectMode (mode : Mode) : Inv (selectMode mode s) := { h with }
theorem setInterlaceFlag (b : Bool) : Inv (setInterlaceFlag b s) := { h with }
theorem setRedrawPending (b : Bool) : Inv (setRedrawPending b s) := { h with }
theorem consumeScanline : Inv (consumeScanline s) := { h with }
theorem recordScanlineFault (stale : Bool) : Inv (recordScanlineFault stale s) := { h with }
theorem hostLoad (address : BitVec 32) : Inv (hostLoad address s) := { h with }
theorem recordRace (old : State) (watched : List (BitVec 32)) : Inv (recordRace old s watched) := { h with }

/-! These change some of them. -/

theorem writeFbBase (v : Word) : Inv (writeFbBase v s) :=
  { h with
    fbBaseAligned := writeFbBase_fbBase_aligned v s
    fbBaseUnset := fun hunset => by simp at hunset }

/-- Recording an error keeps the first one, or records one with a cause (R143). -/
theorem raiseError {cause : Cause} (hc : cause ≠ .none) (w : Word) : Inv (raiseError cause w s) := by
  cases herr : s.err with
  | true => rwa [Machine.raiseError, if_pos herr]
  | false =>
    rw [Machine.raiseError, if_neg (by simp [herr])]
    exact { h with
      errorAbsent := fun habsent => by simp at habsent
      errorCaused := fun _ => hc }

theorem setReport {first count : Nat} (hr : LegalReport first count) : Inv (setReport first count s) := by
  obtain ⟨hempty, hend, hcount⟩ := hr
  simp only [destRows] at hend hcount
  have hfirst : (Machine.setReport first count s).firstRow.toNat = first := by
    rw [setReport_firstRow, BitVec.toNat_ofNat]
    omega
  have hrows : (Machine.setReport first count s).rowCount.toNat = count := by
    rw [setReport_rowCount, BitVec.toNat_ofNat]
    omega
  exact { h with
    emptyReport := fun hzero => by
      rw [← BitVec.toNat_inj] at hzero ⊢
      rw [hrows] at hzero
      rw [hfirst]
      exact hempty hzero
    reportInside := by rwa [hfirst, hrows]
    reportCount := by rwa [hrows] }

theorem reportRows {rows : List Nat} (hr : ShortSpan rows) : Inv (reportRows rows s) :=
  h.setReport hr.legalReport

/-- A command that draws where it is not refused keeps memory canonical and leaves the writer idle (R87). -/
theorem drawRows (bit : Nat → Nat → Bool) {rows : List Nat} (hrows : DrawableRows rows)
    (hstop : writeStop s rows = none) : Inv (drawRows s bit rows) := by
  rcases (writeStop_eq_none s rows).mp hstop with rfl | ⟨hfits, -⟩
  · exact h
  · exact { h with
      memCanonical := drawRows_wf s hfits bit hrows h.memCanonical
      writerIdle := writeRows_idle s bit rows s.writer h.writerIdle }

theorem hostStore (address : BitVec 32) (b : Byte) : Inv (hostStore address b s) :=
  { h with memCanonical := Memory.store_wf h.memCanonical ⟨by simp, by simpa using address.isLt⟩ }

/-- The reset input gives the fields their reset values, and keeps memory (70_reset_and_hazards.md R160). -/
theorem blockReset : Inv (blockReset s) where
  memCanonical := h.memCanonical
  writerIdle := ⟨rfl, rfl⟩
  fbBaseAligned := Nat.zero_mod _
  fbBaseUnset := fun _ => rfl
  errorAbsent := fun _ => ⟨rfl, rfl⟩
  errorCaused := fun herr => by simp at herr
  emptyReport := fun _ => rfl
  reportInside := Nat.zero_le _
  reportCount := .inl (Nat.zero_le _)

/-! ### Instructions and events -/

theorem renderedState {line : BitVec 8} (hstop : writeStop s (renderRows s line) = none) :
    Inv (renderedState s line) :=
  (((h.drawRows (renderBit s line) (renderRows_drawable s line) hstop).reportRows
    (renderRows_shortSpan s line)).recordScanlineFault _).consumeScanline

theorem modeSetState {mode : Mode} (hstop : writeStop s (List.range destRows) = none) :
    Inv (modeSetState s mode) := by
  have hstop' : writeStop (Machine.selectMode mode s) (List.range destRows) = none := hstop
  exact ((h.selectMode mode).drawRows _ allRows_drawable hstop').setRedrawPending true

theorem of_effect {t : State} (he : Effect s t) : Inv t := by
  cases he with
  | ignored => exact h
  | returned v => exact h.returnWord v
  | fbBase v => exact h.writeFbBase v
  | slw i v => exact h.writeSlw i v
  | error cause w hc => exact h.raiseError hc w
  | renderError cause w hc => exact (h.raiseError hc w).consumeScanline
  | interlace b => exact h.setInterlaceFlag b
  | fullRedraw hp => exact (h.setReport (by decide)).setRedrawPending false
  | noRedraw hp => exact h.setReport (by decide)
  | rendered line hv hw => exact h.renderedState hw
  | modeSet mode hv hw => exact h.modeSetState hw

theorem of_runEvent {e : HostEvent} {t : State} (hrun : runEvent e s = .next t) : Inv t := by
  rcases runEvent_eq_next hrun with he | ⟨u, watched, he, rfl⟩ | ⟨address, b, -, rfl⟩ | ⟨address, -, rfl⟩ | ⟨-, rfl⟩
  · exact h.of_effect he
  · exact (h.of_effect he).recordRace s watched
  · exact h.hostStore address b
  · exact h.hostLoad address
  · exact h.blockReset

end Inv

end Sys2Proof.Machine
end

section
/-! SUPPORT. The word a command was written as, and which STATUS fields, FB_BASE and ERR_CMD an instruction changes
(10_state.md R24, R26, R27, 30_encoding.md R66, 60_exceptions.md R143). -/

namespace Sys2Proof

/-- A value is its three fields, put together. -/
theorem append_fields {a b c : Nat} (x : BitVec (a + b + c)) :
    x.extractLsb' (b + c) a ++ x.extractLsb' c b ++ x.extractLsb' 0 c = x := by
  have hhigh : x.extractLsb' (b + c) a ++ x.extractLsb' c b = x.extractLsb' c (a + b) := by
    rw [BitVec.extractLsb'_append_extractLsb'_eq_extractLsb' (Nat.add_comm b c)]
  rw [hhigh]
  exact append_extract x

/-- A word written to CMD is the word of the command it decodes to (30_encoding.md R60, R66). -/
theorem encode_decodeCommand (w : Word) : encode (decodeCommand w) = writeAccess 0x000 w := by
  simp only [decodeCommand]
  split_ifs with h1 h2 h3 h4
  · have hw := append_fields (a := 4) (b := 20) (c := 8) w
    rw [h1] at hw
    exact congrArg (writeAccess 0x000) hw
  · have hw := append_fields (a := 4) (b := 26) (c := 2) w
    rw [h2] at hw
    rw [encode, setModeWord, Mode.toBits_ofBits]
    exact congrArg (writeAccess 0x000) hw
  · have hw := append_fields (a := 4) (b := 27) (c := 1) w
    rw [h3] at hw
    exact congrArg (writeAccess 0x000) hw
  · have hw := append_extract (n := 4) (m := 28) w
    rw [h4] at hw
    exact congrArg (writeAccess 0x000) hw
  · rfl

end Sys2Proof

namespace Sys2Proof.Machine

/-- An instruction is the same access as the command it runs (R66). -/
theorem encode_commandOf (i : Instr) : encode (commandOf i) = encode i := by
  cases i with
  | wrCmd w => exact encode_decodeCommand w
  | _ => rfl

/-- A first error sets ERR and its cause, and records the word; a later one changes nothing (R143). -/
theorem raiseError_of_change {cause : Cause} {w : Word} {s : State}
    (h : (raiseError cause w s).err ≠ s.err ∨ (raiseError cause w s).errCause ≠ s.errCause ∨
      (raiseError cause w s).errCmd ≠ s.errCmd) :
    s.err = false ∧ (raiseError cause w s).errCmd = w := by
  cases herr : s.err with
  | true => simp [herr] at h
  | false => simp [herr]

/-- An instruction changes each STATUS field, FB_BASE and ERR_CMD only as the spec names (R24, R26, R27). -/
structure ChangesAsNamed (i : Instr) (s t : State) : Prop where
  mode : t.mode ≠ s.mode → ∃ m, commandOf i = .setMode 0 m
  interlace : t.interlace ≠ s.interlace → ∃ en, commandOf i = .setInterlace 0 en
  redraw : t.fullRedrawPending ≠ s.fullRedrawPending →
    (t.fullRedrawPending = true ∧ ∃ m, commandOf i = .setMode 0 m) ∨
    (t.fullRedrawPending = false ∧ commandOf i = .endFrame 0)
  fbValid : t.fbValid ≠ s.fbValid → t.fbValid = true ∧ ∃ v, i = .wrFbBase v
  fbBase : t.fbBase ≠ s.fbBase → ∃ v, i = .wrFbBase v
  error : t.err ≠ s.err ∨ t.errCause ≠ s.errCause ∨ t.errCmd ≠ s.errCmd →
    s.err = false ∧ t.err = true ∧ (encode i).op = .write t.errCmd ∧ (encode i).offset = 0

namespace ChangesAsNamed

variable {i : Instr} {s t : State}

/-- Where no field changes there is nothing to name. As `{ refl i s with .. }` it gives every field that stays. -/
theorem refl (i : Instr) (s : State) : ChangesAsNamed i s s := by
  constructor <;> simp

/-- RENDER_LINE's consuming of the scanline is no change to these fields (R112). -/
theorem consumeScanline (h : ChangesAsNamed i s t) : ChangesAsNamed i s (consumeScanline t) := { h with }

/-- The recorded word is the word written to CMD (R143). -/
theorem raiseError (cause : Cause) {w : Word} (hi : encode i = writeAccess 0x000 w) :
    ChangesAsNamed i s (raiseError cause w s) where
  mode h := absurd (raiseError_mode cause w s) h
  interlace h := absurd (raiseError_interlace cause w s) h
  redraw h := absurd (raiseError_fullRedrawPending cause w s) h
  fbValid h := absurd (raiseError_fbValid cause w s) h
  fbBase h := absurd (raiseError_fbBase cause w s) h
  error h := by
    obtain ⟨herr, hcmd⟩ := raiseError_of_change h
    rw [hi, hcmd]
    exact ⟨herr, raiseError_err cause w s, rfl, rfl⟩

/-! The commands, each run by itself or by a write of its word to CMD. -/

theorem of_renderLine {rsv : BitVec 20} {line : BitVec 8} (hi : commandOf i = .renderLine rsv line)
    (h : execRenderLine rsv line s = .next t) : ChangesAsNamed i s t := by
  have hword : encode i = writeAccess 0x000 (renderLineWord rsv line) := by rw [← encode_commandOf, hi]; rfl
  rcases execRenderLine_eq_next h with ⟨-, rfl⟩ | ⟨-, -, rfl⟩ | ⟨-, -, -, rfl⟩
  · exact (raiseError _ hword).consumeScanline
  · exact (raiseError _ hword).consumeScanline
  · exact { refl i s with }

theorem of_setMode {rsv : BitVec 26} {mode : Mode} (hi : commandOf i = .setMode rsv mode)
    (h : execSetMode rsv mode s = .next t) : ChangesAsNamed i s t := by
  have hword : encode i = writeAccess 0x000 (setModeWord rsv mode) := by rw [← encode_commandOf, hi]; rfl
  rcases execSetMode_eq_next h with ⟨-, rfl⟩ | ⟨-, -, rfl⟩ | ⟨rfl, -, -, rfl⟩
  · exact raiseError _ hword
  · exact raiseError _ hword
  · exact { refl i s with
      mode := fun _ => ⟨mode, hi⟩
      redraw := fun _ => .inl ⟨rfl, mode, hi⟩ }

theorem of_setInterlace {rsv : BitVec 27} {en : BitVec 1} (hi : commandOf i = .setInterlace rsv en)
    (h : execSetInterlace rsv en s = .next t) : ChangesAsNamed i s t := by
  have hword : encode i = writeAccess 0x000 (setInterlaceWord rsv en) := by rw [← encode_commandOf, hi]; rfl
  unfold execSetInterlace at h
  split at h <;> cases h
  · exact raiseError _ hword
  · next hrsv =>
    obtain rfl : rsv = 0 := not_not.mp hrsv
    exact { refl i s with interlace := fun _ => ⟨en, hi⟩ }

theorem of_endFrame {rsv : BitVec 28} (hi : commandOf i = .endFrame rsv)
    (h : execEndFrame rsv s = .next t) : ChangesAsNamed i s t := by
  have hword : encode i = writeAccess 0x000 (endFrameWord rsv) := by rw [← encode_commandOf, hi]; rfl
  unfold execEndFrame at h
  split at h
  · cases h
    exact raiseError _ hword
  · next hrsv =>
    obtain rfl : rsv = 0 := not_not.mp hrsv
    split at h <;> cases h
    · exact { refl i s with redraw := fun _ => .inr ⟨rfl, hi⟩ }
    · exact { refl i s with }

theorem of_wrCmd {w : Word} (h : execWrCmd w s = .next t) : ChangesAsNamed (.wrCmd w) s t := by
  unfold execWrCmd at h
  split at h
  · exact of_renderLine ‹_› h
  · exact of_setMode ‹_› h
  · exact of_setInterlace ‹_› h
  · exact of_endFrame ‹_› h
  · cases h
    exact raiseError _ rfl

theorem of_exec (h : exec i s = .next t) : ChangesAsNamed i s t := by
  cases i with
  | renderLine rsv line => exact of_renderLine rfl h
  | setMode rsv mode => exact of_setMode rfl h
  | setInterlace rsv en => exact of_setInterlace rfl h
  | endFrame rsv => exact of_endFrame rfl h
  | wrCmd w => exact of_wrCmd h
  | wrFbBase v =>
    cases h
    exact { refl _ s with
      fbValid := fun _ => ⟨rfl, v, rfl⟩
      fbBase := fun _ => ⟨v, rfl⟩ }
  | reserved op offset => cases op <;> cases h <;> exact { refl _ s with }
  | _ => cases h; exact { refl _ s with }

end ChangesAsNamed

end Sys2Proof.Machine
end

section
/-! SUPPORT. The scanline's pixels, fewer emits than a word, and the bytes of the host (10_state.md R28, R30, R32). -/

namespace Sys2Proof.Machine

/-! ### The scanline -/

section
variable {s : State} {x : Fin 160} (hx : x.val / 4 < 40)

/-- A pixel of a register written since the last RENDER_LINE or reset is a byte of it (R28). -/
theorem slByte_of_fresh (h : s.slwFresh[x.val / 4] = true) :
    slByte s x = (s.slw[x.val / 4]).extractLsb' (8 * (x.val % 4)) 8 := by
  simp [slByte, slWord, h]

/-- A pixel of any other register is a byte of a free word (R112). -/
theorem slByte_of_stale (h : s.slwFresh[x.val / 4] = false) :
    slByte s x = (Config.staleSlw s.freeCtr (x.val / 4)).extractLsb' (8 * (x.val % 4)) 8 := by
  simp [slByte, slWord, h]

end

/-- RENDER_LINE consumes the scanline, whether it succeeds or not (R112). -/
theorem execRenderLine_consumes {rsv : BitVec 20} {line : BitVec 8} {s t : State}
    (h : execRenderLine rsv line s = .next t) : ∃ u, t = consumeScanline u ∧ u.freeCtr = s.freeCtr := by
  rcases execRenderLine_eq_next h with ⟨-, rfl⟩ | ⟨-, -, rfl⟩ | ⟨-, -, -, rfl⟩
  · exact ⟨_, rfl, raiseError_freeCtr _ _ s⟩
  · exact ⟨_, rfl, raiseError_freeCtr _ _ s⟩
  · exact ⟨_, rfl, rfl⟩

/-! ### Fewer emits than a word -/

/-- Bits that do not fill the word wait in ACC, and nothing is written (R84). -/
theorem emitBits_partial (p : Params) (f : Nat → Bool) (n m : Nat) (a : BitVec 32) (hm : n + m < wordBits p) :
    emitBits p ((List.range' n m).map f) ⟨accAfter p f 0 n, n, a⟩ = (⟨accAfter p f 0 (n + m), n + m, a⟩, []) := by
  induction m generalizing n with
  | zero => rfl
  | succ m ih =>
    have hn : n + 1 ≠ wordBits p := by omega
    have hrest := ih (n + 1) (by omega)
    rw [accAfter, Nat.zero_add, Nat.add_right_comm] at hrest
    simp only [List.range'_succ, List.map_cons, emitBits, emit, if_neg hn, List.nil_append, hrest]
    rfl

/-- A list of bits is its own entries, in order. -/
theorem map_getD_range' (bits : List Bool) : (List.range' 0 bits.length).map (bits.getD · false) = bits := by
  refine List.ext_getElem (by simp) fun n _ hn => ?_
  simp [hn]

/-! ### Memory -/

/-- A stored byte is read back (R32). -/
theorem framebufferByte_hostStore {s : State} (hm : Memory.wf s.mem) (a : BitVec 32) (b : Byte) :
    framebufferByte (hostStore a b s) a.toNat = b := by
  rw [framebufferByte, hostStore_mem, Memory.read_store hm.1 (by simp), Memory.read_cons, if_pos rfl]
  rfl

/-- A store leaves every other byte (R32). -/
theorem hostStore_read_other {s : State} (hm : Memory.wf s.mem) (a : BitVec 32) (b : Byte) {n : Nat}
    (hn : n ≠ a.toNat) : (hostStore a b s).mem.read n = s.mem.read n := by
  rw [hostStore_mem, Memory.read_store hm.1 (by simp), Memory.read_cons, if_neg hn]
  rfl

/-! ### RENDER_LINE under the mode's rules -/

theorem renderRows_of_inert {s : State} (h : interlaceInert s = true) (line : BitVec 8) :
    renderRows s line = rowMap s.mode line.toNat := by
  rw [renderRows, if_neg (by simpa [interlaceInert] using h)]

end Sys2Proof.Machine
end

section
/-! SUPPORT. The obligations that rest on 10_state.md. -/

namespace Sys2Proof.Machine

/-- Settles O52: an idle step keeps the state, and each of the host's events keeps the invariant. -/
theorem stepKeepsInvariant : Obligations.StepKeepsInvariant := by
  intro s t h hstep
  rcases step_eq_next hstep with ⟨-, rfl⟩ | ⟨e, rest, -, hrun⟩
  · exact h
  · exact (h.setHost rest).of_runEvent hrun

/-- Settles O22: the rows a line draws are a short span, and the report gives that span. -/
theorem reportIsExactlyTheRowsWritten : Obligations.ReportIsExactlyTheRowsWritten := by
  intro s line hready hinert
  obtain ⟨-, hlen, -⟩ := renderRows_shortSpan s line
  refine ⟨renderedState s line, execRenderLine_ready hready, fun r => ?_, ?_, fun hzero => ?_⟩
  · rw [← renderRows_of_inert hinert]
    exact mem_renderRows_iff_reported s line r
  · rwa [renderedState_rowCount_toNat]
  · have hnil := (renderedState_rowCount_eq_zero s line).mp hzero
    rw [← BitVec.toNat_inj, renderedState_firstRow_toNat, hnil]
    rfl

/-- Settles O27: RENDER_LINE leaves no register fresh, and moves the counter of the free values on. -/
theorem scanlineIsWhatTheHostWroteUntilRendered : Obligations.ScanlineIsWhatTheHostWroteUntilRendered := by
  refine ⟨fun s x hfresh => slByte_of_fresh _ hfresh, fun s t rsv line x h => ?_⟩
  obtain ⟨u, rfl, hctr⟩ := execRenderLine_consumes h
  rw [slByte_of_stale (by omega) (by simp), consumeScanline_freeCtr, hctr]

/-- Settles O39: each bit of ACC is the bit emitted there, or 0 where none was. -/
theorem partialWordWaitsInAcc : Obligations.PartialWordWaitsInAcc := by
  intro p bits wptr hlen
  have hemit := emitBits_partial p (bits.getD · false) 0 bits.length wptr (by omega)
  rw [map_getD_range', Nat.zero_add, accAfter] at hemit
  rw [hemit]
  refine ⟨rfl, rfl, rfl, fun n hn => ?_⟩
  have hback : wordBits p - 1 - (wordBits p - 1 - n) = n := by omega
  have hlow : wordBits p - 1 - n < wordBits p := by omega
  rw [accAfter_getLsbD p _ 0 _ _ (Nat.le_of_lt hlen), hback, Nat.zero_add, decide_eq_true hlow, Bool.true_and]
  by_cases h : n < bits.length
  · rw [decide_eq_true h, Bool.true_and]
  · rw [decide_eq_false h, Bool.false_and, List.getD_eq_default _ _ (Nat.not_lt.mp h)]

/-- Settles O43: the low bits of FB_BASE are masked off, and a read returns it. -/
theorem fbBaseStoresAlignedAddress : Obligations.FbBaseStoresAlignedAddress :=
  fun s => ⟨fun v => ⟨writeFbBase v s, rfl, rfl, fun _ hb => writeFbBase_fbBase_getLsbD v s hb⟩, rfl⟩

/-- Settles O50, from what each instruction changes. -/
theorem statusFieldsHaveTheirWriters : Obligations.StatusFieldsHaveTheirWriters := by
  intro i s t h
  have hc := ChangesAsNamed.of_exec h
  exact ⟨hc.mode, hc.interlace, hc.redraw, hc.fbValid, hc.fbBase, hc.error⟩

/-- Settles O55: the load reads the byte that the store before it wrote. -/
theorem hostStoreThenLoad : Obligations.HostStoreThenLoad := by
  intro s a b rest hm hhost
  refine ⟨hostStore a b (setHost (.loadByte a :: rest) s), hostLoad a (hostStore a b (setHost rest s)),
    step_of_host hhost, step_of_host (e := .loadByte a) (rest := rest) rfl, rfl, ?_, fun n hn => ?_⟩
  · rw [hostLoad, framebufferByte_hostStore (s := setHost rest s) hm]
    rfl
  · exact hostStore_read_other (s := setHost (.loadByte a :: rest) s) hm a b hn

/-- Settles O5: the step takes the access off the list, and the decoder gives its instruction. -/
theorem stepRunsDecodedInstr : Obligations.StepRunsDecodedInstr := by
  refine ⟨fun s a rest i hhost hdecode => ?_, fun s hidle => ?_⟩
  · rw [step_of_host hhost, runEvent, runAccess, hdecode]
    rfl
  · simp only [step, hidle]

end Sys2Proof.Machine
end

section
/-! SUPPORT. The instructions and framebuffer memory: RENDER_LINE and SET_MODE write it, inside the framebuffer region,
none reads it, and no other instruction is refused (20_memory.md R41, R44, R54, 60_exceptions.md R151). -/

namespace Sys2Proof.Machine

/-- What an instruction, or a part of one, answers on each state. -/
abbrev Run : Type := State → Host.Outcome State Fault Refusal

/-- The state with other framebuffer memory. -/
def setMem (m : Memory) (s : State) : State := { s with mem := m }

/-! ### RENDER_LINE and SET_MODE that record an error -/

theorem execRenderLine_of_reserved {rsv : BitVec 20} (h : rsv ≠ 0) (line : BitVec 8) (s : State) :
    execRenderLine rsv line s = .next (consumeScanline (raiseError .rsvField (renderLineWord rsv line) s)) :=
  if_pos h

theorem execRenderLine_of_unset (line : BitVec 8) {s : State} (h : s.fbValid = false) :
    execRenderLine 0 line s = .next (consumeScanline (raiseError .noFb (renderLineWord 0 line) s)) := by
  simp [execRenderLine, h]

theorem execSetMode_of_reserved {rsv : BitVec 26} (h : rsv ≠ 0) (mode : Mode) (s : State) :
    execSetMode rsv mode s = .next (raiseError .rsvField (setModeWord rsv mode) s) :=
  if_pos h

theorem execSetMode_of_unset (mode : Mode) {s : State} (h : s.fbValid = false) :
    execSetMode 0 mode s = .next (raiseError .noFb (setModeWord 0 mode) s) := by
  simp [execSetMode, h]

/-! ### The instructions that do not draw -/

/-- The operation completes on every state, is blind to framebuffer memory and leaves it, and leaves the record of a
stale read. -/
def OffMemory (run : Run) : Prop :=
  ∃ f : State → State, run = (fun s => .next (f s)) ∧ (∀ m s, f (setMem m s) = setMem m (f s)) ∧
    ∀ s, (f s).scanlineFault = s.scanlineFault

theorem raiseError_setMem (cause : Cause) (w : Word) (m : Memory) (s : State) :
    raiseError cause w (setMem m s) = setMem m (raiseError cause w s) := by
  have herr : (setMem m s).err = s.err := rfl
  simp only [raiseError, herr, apply_ite (setMem m)]
  rfl

theorem offMemory_raiseError (cause : Cause) (w : Word) : OffMemory (fun s => .next (raiseError cause w s)) :=
  ⟨_, rfl, raiseError_setMem cause w, raiseError_scanlineFault cause w⟩

theorem offMemory_setInterlace (rsv : BitVec 27) (en : BitVec 1) : OffMemory (execSetInterlace rsv en) := by
  by_cases h : rsv = 0
  · exact ⟨setInterlaceFlag (en == 1), funext fun s => if_neg (not_not.mpr h), fun _ _ => rfl, fun _ => rfl⟩
  · obtain ⟨f, hf, hkeeps⟩ := offMemory_raiseError .rsvField (setInterlaceWord rsv en)
    exact ⟨f, (funext fun s => if_pos h).trans hf, hkeeps⟩

/-- The state after an END_FRAME that runs (42_control.md R122). -/
def frameEndState (s : State) : State :=
  if s.fullRedrawPending then setRedrawPending false (setReport 0 destRows s) else setReport 0 0 s

theorem frameEndState_setMem (m : Memory) (s : State) : frameEndState (setMem m s) = setMem m (frameEndState s) := by
  simp only [frameEndState, apply_ite (setMem m)]
  rfl

theorem frameEndState_scanlineFault (s : State) : (frameEndState s).scanlineFault = s.scanlineFault := by
  unfold frameEndState
  split <;> rfl

theorem execEndFrame_zero (s : State) : execEndFrame 0 s = .next (frameEndState s) :=
  (apply_ite Host.Outcome.next (s.fullRedrawPending = true) _ _).symm

theorem offMemory_endFrame (rsv : BitVec 28) : OffMemory (execEndFrame rsv) := by
  by_cases h : rsv = 0
  · subst h
    exact ⟨frameEndState, funext execEndFrame_zero, frameEndState_setMem, frameEndState_scanlineFault⟩
  · obtain ⟨f, hf, hkeeps⟩ := offMemory_raiseError .rsvField (endFrameWord rsv)
    exact ⟨f, (funext fun s => if_pos h).trans hf, hkeeps⟩

/-- An instruction runs RENDER_LINE, or runs SET_MODE, or has nothing to do with framebuffer memory. -/
inductive MemoryUse (i : Instr) : Prop where
  | renderLine (rsv : BitVec 20) (line : BitVec 8) (hc : commandOf i = .renderLine rsv line)
      (hrun : exec i = execRenderLine rsv line)
  | setMode (rsv : BitVec 26) (mode : Mode) (hc : commandOf i = .setMode rsv mode)
      (hrun : exec i = execSetMode rsv mode)
  | none (hrun : OffMemory (exec i))

/-- A write to CMD uses memory as the command of its word does (30_encoding.md R66). -/
theorem memoryUse_wrCmd (w : Word) : MemoryUse (.wrCmd w) := by
  have hexec : exec (.wrCmd w) = execWrCmd w := rfl
  unfold execWrCmd at hexec
  split at hexec
  · exact .renderLine _ _ ‹_› hexec
  · exact .setMode _ _ ‹_› hexec
  · exact .none (hexec ▸ offMemory_setInterlace _ _)
  · exact .none (hexec ▸ offMemory_endFrame _)
  · exact .none (hexec ▸ offMemory_raiseError _ _)

theorem memoryUse (i : Instr) : MemoryUse i := by
  cases i with
  | renderLine rsv line => exact .renderLine rsv line rfl rfl
  | setMode rsv mode => exact .setMode rsv mode rfl rfl
  | setInterlace rsv en => exact .none (offMemory_setInterlace rsv en)
  | endFrame rsv => exact .none (offMemory_endFrame rsv)
  | wrCmd w => exact memoryUse_wrCmd w
  | reserved op offset => cases op <;> exact .none ⟨_, rfl, fun _ _ => rfl, fun _ => rfl⟩
  | _ => exact .none ⟨_, rfl, fun _ _ => rfl, fun _ => rfl⟩

end Sys2Proof.Machine
end

section
/-! SUPPORT. The bytes an instruction writes: they lie in the framebuffer region, and they do not depend on what memory
holds (20_memory.md R41, R44, R54). -/

namespace Sys2Proof.Machine

/-- The address lies in the framebuffer region of the state (R41). -/
abbrev InRegion (s : State) (a : Nat) : Prop :=
  s.fbBase.toNat ≤ a ∧ a < s.fbBase.toNat + destRows * strideBytes s.params

/-- Run on `s`, whatever memory it holds, the operation answers `t` with the bytes `cells` written: bytes of the
framebuffer region, at addresses that rise (R41, R51). -/
structure Stores (run : Run) (s t : State) (cells : List Host.Cell) : Prop where
  canonical : Memory.wf cells
  inside : ∀ c ∈ cells, InRegion s c.1
  runs : ∀ m, run (setMem m s) = .next (setMem (m.store cells) t)

/-! ### The parts of a command -/

/-- A run that passes memory through writes no byte. -/
theorem Stores.nothing {run : Run} {s t : State} (h : ∀ m, run (setMem m s) = .next (setMem m t)) :
    Stores run s t [] :=
  ⟨⟨.nil, by simp⟩, by simp, h⟩

theorem Stores.of_offMemory {run : Run} {s t : State} (hrun : OffMemory run) (h : run s = .next t) :
    Stores run s t [] := by
  obtain ⟨f, rfl, hmem, -⟩ := hrun
  cases h
  exact .nothing fun m => congrArg Host.Outcome.next (hmem m s)

theorem Stores.mem_eq {run : Run} {s t : State} {cells : List Host.Cell} (hs : Stores run s t cells)
    (h : run s = .next t) : t.mem = s.mem.store cells := by
  have hrun : run s = .next (setMem (s.mem.store cells) t) := hs.runs s.mem
  rw [h] at hrun
  injection hrun with hrun
  exact congrArg State.mem hrun

/-- The bytes of a command that is not refused are in canonical form and in the region. -/
theorem writeRows_cells_inside {s : State} {rows : List Nat} (hrows : DrawableRows rows)
    (hstop : writeStop s rows = none) (bit : Nat → Nat → Bool) (w : Writer) :
    Memory.wf (writeRows s bit rows w).2 ∧ ∀ c ∈ (writeRows s bit rows w).2, InRegion s c.1 := by
  rw [writeRows_cells]
  rcases (writeStop_eq_none s rows).mp hstop with rfl | ⟨hfits, -⟩
  · exact ⟨⟨.nil, by simp⟩, by simp⟩
  · refine ⟨flatMap_rowCells_wf s hfits bit hrows, fun c hc => ?_⟩
    obtain ⟨r, hr, hc⟩ := List.mem_flatMap.mp hc
    obtain ⟨j, hj, rfl⟩ := (mem_rowCells s hfits _ (hrows.2 r hr)).mp hc
    have hfirst := rowStart_mono s (Nat.zero_le r)
    have hlast := rowStart_mono s (show r + 1 ≤ destRows from hrows.2 r hr)
    have hend := rowStart_add_stride s r
    simp only [InRegion, rowStart, Nat.zero_mul, Nat.add_zero] at *
    omega

/-- Drawing adds its bytes to memory, whatever memory holds (R44). -/
theorem drawRows_setMem (m : Memory) (s : State) (bit : Nat → Nat → Bool) (rows : List Nat) :
    drawRows (setMem m s) bit rows =
      setMem (m.store (writeRows s bit rows s.writer).2) (drawRows s bit rows) := by
  simp only [drawRows, writeRows_congr (s := s) (t := setMem m s) rfl rfl]
  rfl

theorem renderedState_setMem (m : Memory) (s : State) (line : BitVec 8) :
    renderedState (setMem m s) line =
      setMem (m.store (writeRows s (renderBit s line) (renderRows s line) s.writer).2) (renderedState s line) := by
  have hrows : renderRows (setMem m s) line = renderRows s line := rfl
  have hbit : renderBit (setMem m s) line = renderBit s line := rfl
  simp only [renderedState, hrows, hbit, drawRows_setMem]
  rfl

theorem modeSetState_setMem (m : Memory) (s : State) (mode : Mode) :
    modeSetState (setMem m s) mode =
      setMem (m.store (writeRows s (clearBit s) (List.range destRows) s.writer).2) (modeSetState s mode) := by
  have hcells := writeRows_congr (s := s) (t := selectMode mode s) rfl rfl (clearBit s) (List.range destRows) s.writer
  rw [← hcells]
  exact congrArg (setRedrawPending true)
    (drawRows_setMem m (selectMode mode s) (clearBit (selectMode mode s)) (List.range destRows))

/-- A framebuffer is ready where nothing stops a command that draws every row. -/
theorem framebufferReady_iff (s : State) :
    framebufferReady s = true ↔ s.fbValid = true ∧ writeStop s (List.range destRows) = none := by
  have hne : List.range destRows ≠ [] := by simp
  rw [writeStop_eq_none, or_iff_right hne]
  simp [framebufferReady, and_assoc]

/-! ### Instructions -/

theorem exists_stores_renderLine {rsv : BitVec 20} {line : BitVec 8} {s t : State}
    (h : execRenderLine rsv line s = .next t) : ∃ cells, Stores (execRenderLine rsv line) s t cells := by
  rcases execRenderLine_eq_next h with ⟨hrsv, rfl⟩ | ⟨rfl, hunset, rfl⟩ | ⟨rfl, hvalid, hstop, rfl⟩
  · refine ⟨[], .nothing fun m => ?_⟩
    rw [execRenderLine_of_reserved hrsv, raiseError_setMem]
    rfl
  · refine ⟨[], .nothing fun m => ?_⟩
    rw [execRenderLine_of_unset (s := setMem m s) line hunset, raiseError_setMem]
    rfl
  · obtain ⟨hwf, hin⟩ := writeRows_cells_inside (renderRows_drawable s line) hstop (renderBit s line) s.writer
    refine ⟨_, hwf, hin, fun m => ?_⟩
    have hready : lineReady (setMem m s) line = true := (lineReady_iff s line).mpr ⟨hvalid, hstop⟩
    rw [execRenderLine_ready hready, renderedState_setMem]

theorem exists_stores_setMode {rsv : BitVec 26} {mode : Mode} {s t : State}
    (h : execSetMode rsv mode s = .next t) : ∃ cells, Stores (execSetMode rsv mode) s t cells := by
  rcases execSetMode_eq_next h with ⟨hrsv, rfl⟩ | ⟨rfl, hunset, rfl⟩ | ⟨rfl, hvalid, hstop, rfl⟩
  · refine ⟨[], .nothing fun m => ?_⟩
    rw [execSetMode_of_reserved hrsv, raiseError_setMem]
  · refine ⟨[], .nothing fun m => ?_⟩
    rw [execSetMode_of_unset (s := setMem m s) mode hunset, raiseError_setMem]
  · obtain ⟨hwf, hin⟩ := writeRows_cells_inside allRows_drawable hstop (clearBit s) s.writer
    refine ⟨_, hwf, hin, fun m => ?_⟩
    have hready : framebufferReady (setMem m s) = true := (framebufferReady_iff s).mpr ⟨hvalid, hstop⟩
    rw [execSetMode_ready hready, modeSetState_setMem]

/-- Every instruction that completes writes bytes of the region, the same whatever memory holds. -/
theorem exists_stores {i : Instr} {s t : State} (h : exec i s = .next t) : ∃ cells, Stores (exec i) s t cells := by
  cases memoryUse i with
  | renderLine rsv line hc hrun =>
    rw [hrun] at h ⊢
    exact exists_stores_renderLine h
  | setMode rsv mode hc hrun =>
    rw [hrun] at h ⊢
    exact exists_stores_setMode h
  | none hrun => exact ⟨[], .of_offMemory hrun h⟩

end Sys2Proof.Machine
end

section
/-! SUPPORT. Which instructions are refused, and which record a stale read (20_memory.md R46,
70_reset_and_hazards.md R164, R170). -/

namespace Sys2Proof.Machine

/-! ### Refusals -/

theorem execRenderLine_eq_refused {rsv : BitVec 20} {line : BitVec 8} {s : State} {r : Refusal} :
    execRenderLine rsv line s = .refused r ↔
      rsv = 0 ∧ s.fbValid = true ∧ writeStop s (renderRows s line) = some r := by
  by_cases hrsv : rsv = 0
  · subst hrsv
    cases hvalid : s.fbValid with
    | false =>
      rw [execRenderLine_of_unset line hvalid]
      simp
    | true => cases hstop : writeStop s (renderRows s line) <;> simp [execRenderLine, hvalid, hstop]
  · rw [execRenderLine_of_reserved hrsv]
    exact iff_of_false (by simp) fun h => hrsv h.1

theorem execSetMode_eq_refused {rsv : BitVec 26} {mode : Mode} {s : State} {r : Refusal} :
    execSetMode rsv mode s = .refused r ↔
      rsv = 0 ∧ s.fbValid = true ∧ writeStop s (List.range destRows) = some r := by
  by_cases hrsv : rsv = 0
  · subst hrsv
    cases hvalid : s.fbValid with
    | false =>
      rw [execSetMode_of_unset mode hvalid]
      simp
    | true => cases hstop : writeStop s (List.range destRows) <;> simp [execSetMode, hvalid, hstop]
  · rw [execSetMode_of_reserved hrsv]
    exact iff_of_false (by simp) fun h => hrsv h.1

/-- Only a RENDER_LINE and a SET_MODE of a valid framebuffer are refused, for the rows they would write (R46, R151). -/
theorem exec_eq_refused {i : Instr} {s : State} {r : Refusal} (h : exec i s = .refused r) :
    s.fbValid = true ∧
      ((∃ line, commandOf i = .renderLine 0 line ∧ writeStop s (renderRows s line) = some r) ∨
        ∃ mode, commandOf i = .setMode 0 mode ∧ writeStop s (List.range destRows) = some r) := by
  cases memoryUse i with
  | renderLine rsv line hc hrun =>
    rw [hrun] at h
    obtain ⟨rfl, hvalid, hstop⟩ := execRenderLine_eq_refused.mp h
    exact ⟨hvalid, .inl ⟨line, hc, hstop⟩⟩
  | setMode rsv mode hc hrun =>
    rw [hrun] at h
    obtain ⟨rfl, hvalid, hstop⟩ := execSetMode_eq_refused.mp h
    exact ⟨hvalid, .inr ⟨mode, hc, hstop⟩⟩
  | none hrun =>
    obtain ⟨f, hf, -⟩ := hrun
    simp [hf] at h

theorem regionFits_eq_false (s : State) :
    regionFits s = false ↔ 2 ^ 32 < s.fbBase.toNat + destRows * strideBytes s.params := by
  simp [regionFits]

/-- A wrap is named where there are rows to write and the region wraps (R46). -/
theorem writeStop_eq_wraps (s : State) (rows : List Nat) :
    writeStop s rows = some .framebufferWraps ↔ rows ≠ [] ∧ regionFits s = false := by
  unfold writeStop
  by_cases hrows : rows = []
  · simp [hrows]
  · cases hfits : regionFits s <;> simp [hrows]

/-! ### Duties and moves -/

/-- Only a RENDER_LINE that draws a row from a scanline that is not loaded changes the record of a stale read (R164). -/
theorem exec_scanlineFault {i : Instr} {s t : State} (h : exec i s = .next t) :
    t.scanlineFault = s.scanlineFault ∨
      ∃ line, commandOf i = .renderLine 0 line ∧ s.fbValid = true ∧ renderRows s line ≠ [] ∧
        scanlineLoaded s = false := by
  cases memoryUse i with
  | renderLine rsv line hc hrun =>
    rw [hrun] at h
    rcases execRenderLine_eq_next h with ⟨-, rfl⟩ | ⟨-, -, rfl⟩ | ⟨rfl, hvalid, -, rfl⟩
    · exact .inl (raiseError_scanlineFault _ _ s)
    · exact .inl (raiseError_scanlineFault _ _ s)
    · cases hstale : readsStale s (renderRows s line) with
      | false => exact .inl ((congrArg (s.scanlineFault || ·) hstale).trans (Bool.or_false _))
      | true =>
        simp only [readsStale, Bool.and_eq_true, Bool.not_eq_true', List.isEmpty_eq_false_iff] at hstale
        exact .inr ⟨line, hc, hvalid, hstale⟩
  | setMode rsv mode hc hrun =>
    rw [hrun] at h
    rcases execSetMode_eq_next h with ⟨-, rfl⟩ | ⟨-, -, rfl⟩ | ⟨-, -, -, rfl⟩
    · exact .inl (raiseError_scanlineFault _ _ s)
    · exact .inl (raiseError_scanlineFault _ _ s)
    · exact .inl rfl
  | none hrun =>
    obtain ⟨f, hf, -, hfault⟩ := hrun
    rw [hf] at h
    cases h
    exact .inl (hfault s)

/-- A RENDER_LINE breaks a duty where some SLW register has not been written (R170). -/
theorem dutiesKept_of_stale {i : Instr} {s : State} {line : BitVec 8} (hc : commandOf i = .renderLine 0 line)
    (hvalid : s.fbValid = true) (hstale : scanlineLoaded s = false) : dutiesKept i s = false := by
  simp [dutiesKept, hc, hvalid, hstale]

/-- An instruction whose duties are kept records no stale read (R164). -/
theorem exec_scanlineFault_of_dutiesKept {i : Instr} {s t : State} (hkept : dutiesKept i s = true)
    (h : exec i s = .next t) : t.scanlineFault = s.scanlineFault := by
  rcases exec_scanlineFault h with hsame | ⟨line, hc, hvalid, -, hstale⟩
  · exact hsame
  · rw [dutiesKept_of_stale hc hvalid hstale] at hkept
    cases hkept

section
variable {s : State} {e : HostEvent} {a : BusAccess} {i : Instr}

theorem eventDutiesKept_of_access (ha : accessOf s.params e = some a) (hd : decode a = .ok i) :
    eventDutiesKept e s = dutiesKept i s := by
  simp [eventDutiesKept, ha, hd]

/-- An event that makes an access runs it; a raced one then records the racing reads. -/
theorem runEvent_of_access {t : State} (ha : accessOf s.params e = some a) (h : runEvent e s = .next t) :
    ∃ u, runAccess a s = .next u ∧ (t = u ∨ ∃ watched, t = recordRace s u watched) := by
  cases e with
  | access b =>
    cases ha
    exact ⟨t, h, .inl rfl⟩
  | accessAt address op size furtherBeats =>
    obtain ⟨offset, hoffset, rfl⟩ := Option.map_eq_some_iff.mp ha
    simp only [runEvent, hoffset] at h
    exact ⟨t, h, .inl rfl⟩
  | raced b watched =>
    cases ha
    simp only [runEvent] at h
    split at h
    · cases h
      exact ⟨_, ‹_›, .inr ⟨watched, rfl⟩⟩
    · cases h
    · cases h
  | storeByte | loadByte | reset => cases ha

theorem move_of_broken {rest : List HostEvent} (hhost : s.host = e :: rest)
    (hbroken : eventDutiesKept e s = false) : move s = none := by
  simp [move, hhost, hbroken]

/-- Where the duties are kept, and the step records no stale read, the moves are the steps (R170). -/
theorem move_eq_some_iff {rest : List HostEvent} (hhost : s.host = e :: rest) (hkept : eventDutiesKept e s = true)
    (hclean : ∀ t, step s = .next t → t.scanlineFault = false) (t : State) :
    move s = some t ↔ step s = .next t := by
  have hall : s.host.head?.all (eventDutiesKept · s) = true := by simpa [hhost] using hkept
  rw [move, if_pos hall]
  cases hstep : step s with
  | next u => simp [hclean u hstep]
  | fault r => simp
  | refused r => simp

end

end Sys2Proof.Machine
end

section
/-! SUPPORT. Aligned accesses, a word flushed from the writer, and the picture a SET_MODE or a RENDER_LINE leaves
(20_memory.md R42, R43, R49, 40_datapath.md R84 to R88, 41_render.md R100). -/

namespace Sys2Proof.Machine

/-- An offset is a multiple of 4 just where its low two bits are 0 (R49). -/
theorem offset_low_eq_zero (offset : BitVec 9) : offset.extractLsb' 0 2 = 0 ↔ offset.toNat % 4 = 0 := by
  rw [← BitVec.toNat_inj, BitVec.extractLsb'_toNat, Nat.shiftRight_zero]
  rfl

/-- A full word of emits from the idle writer: the bytes written, and the idle writer after them (R84, R85). -/
theorem emitBits_full (p : Params) {bits : List Bool} (hlen : bits.length = wordBits p) (a : BitVec 32) :
    emitBits p bits ⟨0, 0, a⟩ = (⟨0, 0, a + BitVec.ofNat 32 (wordBytes p)⟩,
      (List.range (wordBytes p)).map fun i => ((a + BitVec.ofNat 32 i).toNat, packByte (bits.getD · false) i)) := by
  have hword := emitBits_word p (bits.getD · false) 0 a
  rw [← hlen, map_getD_range', hlen, memWrite_accAfter] at hword
  simpa only [Nat.zero_add] using hword

/-! ### SET_MODE -/

section
variable {s : State} (mode : Mode)

theorem modeSetState_eq :
    modeSetState s mode = { s with
      mode := mode
      fullRedrawPending := true
      mem := (modeSetState s mode).mem
      writer := ⟨0, 0, s.fbBase + BitVec.ofNat 32 (destRows * strideBytes s.params)⟩ } := by
  have hlast : (List.range (239 + 1)).getLastD 0 = 239 := by rw [List.range_succ, List.getLastD_concat]
  have hwriter : (modeSetState s mode).writer =
      ⟨0, 0, s.fbBase + BitVec.ofNat 32 (destRows * strideBytes s.params)⟩ := by
    rw [modeSetState, setRedrawPending_writer, clearScreen, drawRows_writer, writeRows_writer _ _ (by simp), hlast]
    rfl
  rw [← hwriter, modeSetState, clearScreen]
  generalize List.range destRows = rows
  rfl

/-- Every column of every row holds FILL_BIT (R88). -/
theorem modeSetState_pixel (hf : regionFits s = true) (hm : Memory.wf s.mem) {r k : Nat} (hr : r < destRows)
    (hk : k < 8 * strideBytes s.params) : framebufferPixel (modeSetState s mode) r k = some s.params.fillBit := by
  have hpixel := drawRows_pixel (selectMode mode s) hf (clearBit (selectMode mode s)) allRows_drawable hm.1
    (List.mem_range.mpr hr) hk
  have hbit : clearBit (selectMode mode s) r k = s.params.fillBit := by simp [clearBit, pixelBit]
  rw [hbit] at hpixel
  exact hpixel

end

/-! ### RENDER_LINE -/

theorem renderBit_of_inert {s : State} (h : interlaceInert s = true) (line : BitVec 8) :
    renderBit s line = pixelBit s (colMap s.mode) := by
  funext r k
  rw [renderBit, if_neg (by simpa [interlaceInert] using h)]

theorem regionFits_of_mem {s : State} {rows : List Nat} (hstop : writeStop s rows = none) {r : Nat} (hr : r ∈ rows) :
    regionFits s = true := by
  rcases (writeStop_eq_none s rows).mp hstop with rfl | ⟨hfits, -⟩
  · cases hr
  · exact hfits

/-- The writer is as it was where no row is written, and idle at the end of the last row otherwise (R83, R87). -/
theorem renderedState_writer_of_rows (s : State) (line : BitVec 8) :
    (renderedState s line).writer = if renderRows s line = [] then s.writer
      else ⟨0, 0, s.fbBase +
        BitVec.ofNat 32 (((renderRows s line).getLastD 0 + 1) * strideBytes s.params)⟩ := by
  have hwriter : (renderedState s line).writer = (writeRows s (renderBit s line) (renderRows s line) s.writer).1 := rfl
  rw [hwriter]
  split
  · next hnone => rw [hnone, writeRows]
  · next hrows => exact writeRows_writer s _ hrows s.writer

/-- Every byte outside the rows of a line that is not refused reads as before, where it has rows or none (R86). -/
theorem renderedState_read_other_of_stop {s : State} {line : BitVec 8} (hm : Memory.wf s.mem)
    (hstop : writeStop s (renderRows s line) = none) {a : Nat}
    (ha : ∀ r ∈ renderRows s line, a < rowStart s r ∨ rowStart s (r + 1) ≤ a) :
    (renderedState s line).mem.read a = s.mem.read a := by
  rcases (writeStop_eq_none s _).mp hstop with hnone | ⟨hfits, -⟩
  · have hdrawn : (renderedState s line).mem = (drawRows s (renderBit s line) (renderRows s line)).mem := rfl
    rw [hdrawn, hnone, drawRows_nil]
  · exact renderedState_read_other line hfits hm ha

end Sys2Proof.Machine
end

section
/-! SUPPORT. The obligations that rest on 20_memory.md. -/

namespace Sys2Proof.Machine

/-- Settles O48: the bytes an instruction writes lie in the framebuffer region. -/
theorem blockWritesOnlyItsRegion : Obligations.BlockWritesOnlyItsRegion := by
  intro i s t a hm h ha
  obtain ⟨cells, hs⟩ := exists_stores h
  have hunwritten : Memory.read cells a = none := Memory.read_eq_none fun c hc hca => by
    have hin := hs.inside c hc
    simp only [InRegion, destRows] at hin
    omega
  rw [hs.mem_eq h, Memory.read_store hm.1 hs.canonical.1, hunwritten, Option.none_or]

/-- Settles O49: the bytes an instruction writes do not depend on what memory holds. -/
theorem framebufferIsNeverRead : Obligations.FramebufferIsNeverRead := by
  intro i s t other hm hother h
  obtain ⟨cells, hs⟩ := exists_stores h
  refine ⟨other.store cells, hs.runs other, fun a => ?_⟩
  rw [hs.mem_eq h, Memory.read_store hm.1 hs.canonical.1, Memory.read_store hother.1 hs.canonical.1]
  cases Memory.read cells a with
  | none => exact .inl ⟨rfl, rfl⟩
  | some b => exact .inr rfl

/-- Settles O20: with its duties kept an instruction records no stale read, and a raced one is no different. -/
theorem brokenDutyHasNoMove : Obligations.BrokenDutyHasNoMove := by
  intro s e rest a i hhost haccess hdecode
  have hduties := eventDutiesKept_of_access haccess hdecode
  have hbroken (h : dutiesKept i s = false) : move s = none := move_of_broken hhost (hduties.trans h)
  refine ⟨fun line hc hvalid hstale => hbroken (dutiesKept_of_stale hc hvalid hstale), ?_, hbroken, ?_⟩
  · rintro v rfl hwraps
    exact hbroken ((regionFits_eq_false (writeFbBase v s)).mpr hwraps)
  · intro hkept hunfaulted
    refine move_eq_some_iff hhost (hduties.trans hkept) fun t hstep => ?_
    rw [step_of_host hhost] at hstep
    obtain ⟨u, hrun, hu⟩ := runEvent_of_access (s := setHost rest s) haccess hstep
    rw [runAccess, hdecode] at hrun
    have hsame : u.scanlineFault = s.scanlineFault :=
      exec_scanlineFault_of_dutiesKept (s := setHost rest s) hkept hrun
    rcases hu with rfl | ⟨watched, rfl⟩
    · exact hsame.trans hunfaulted
    · exact hsame.trans hunfaulted

/-- Settles O28: a command is refused for the rows it would write. -/
theorem wrappingRegionIsRefused : Obligations.WrappingRegionIsRefused := by
  refine ⟨fun s hvalid hwraps => ?_, fun i s h => ?_⟩
  · have hfits := (regionFits_eq_false s).mpr hwraps
    refine ⟨fun m => ?_, fun line hinert hrows => ?_⟩
    · exact execSetMode_eq_refused.mpr ⟨rfl, hvalid, (writeStop_eq_wraps s _).mpr ⟨by simp, hfits⟩⟩
    · rw [← renderRows_of_inert hinert] at hrows
      exact execRenderLine_eq_refused.mpr ⟨rfl, hvalid, (writeStop_eq_wraps s _).mpr ⟨hrows, hfits⟩⟩
  · obtain ⟨hvalid, ⟨line, hc, hstop⟩ | ⟨m, hc, hstop⟩⟩ := exec_eq_refused h
    · obtain ⟨hrows, hfits⟩ := (writeStop_eq_wraps s _).mp hstop
      exact ⟨hvalid, (regionFits_eq_false s).mp hfits, .inr ⟨line, hc, hrows⟩⟩
    · obtain ⟨-, hfits⟩ := (writeStop_eq_wraps s _).mp hstop
      exact ⟨hvalid, (regionFits_eq_false s).mp hfits, .inl ⟨m, hc⟩⟩

/-- Settles O3: the low two bits of the offset are 0 where it is a multiple of 4. -/
theorem exactlyAlignedWordAccessesDecode : Obligations.ExactlyAlignedWordAccessesDecode := by
  intro a
  rw [← offset_low_eq_zero]
  constructor
  · rintro ⟨i, hi⟩
    exact decode_eq_ok hi
  · rintro ⟨hsize, hburst, hoffset⟩
    rw [decode_word hsize hburst hoffset]
    cases a.op with
    | read => exact ⟨_, rfl⟩
    | write v => exact ⟨_, rfl⟩

/-- Settles O16: SET_MODE draws every row, with FILL_BIT at every column. -/
theorem setModeClearsScreenAndMarks : Obligations.SetModeClearsScreenAndMarks := by
  intro s m hm hready
  have hfits := regionFits_of_ready hready
  have hexec : exec (.setMode 0 m) s = .next (modeSetState s m) := execSetMode_ready hready m
  refine ⟨modeSetState s m, hexec, modeSetState_eq m, fun r k hr hk => modeSetState_pixel m hfits hm hr hk, ?_⟩
  exact fun a ha => blockWritesOnlyItsRegion (.setMode 0 m) s _ a hm hexec ha

/-- Settles O17: RENDER_LINE draws the rows of the row map, where there are some. -/
theorem renderLineDrawsItsRows : Obligations.RenderLineDrawsItsRows := by
  intro s line hm hready hinert
  obtain ⟨-, hstop⟩ := (lineReady_iff s line).mp hready
  rw [← renderRows_of_inert hinert line]
  refine ⟨renderedState s line, execRenderLine_ready hready, ?_, fun r hr k hk => ?_, fun a ha => ?_⟩
  · rw [← renderedState_writer_of_rows]
    rfl
  · rw [renderedState_pixel line (regionFits_of_mem hstop hr) hm hr hk, renderBit_of_inert hinert]
    rfl
  · exact renderedState_read_other_of_stop hm hstop ha

/-- Settles O38: the bytes of a full word are packed from its bits, the first at the most significant end. -/
theorem fullWordIsFlushedMsbFirst : Obligations.FullWordIsFlushedMsbFirst := by
  intro p bits wptr hlen
  rw [emitBits_full p hlen]
  refine ⟨rfl, by simp, fun i hi => ⟨packByte (bits.getD · false) i, by simp [hi], fun n hn => ?_⟩⟩
  have hback : 7 - (7 - n) = n := by omega
  rw [packByte_getLsbD _ _ _ (by omega), hback]

/-- Settles O56: the raced access is the access, with the racing reads recorded after it. -/
theorem racedReadsAreOldOrNew : Obligations.RacedReadsAreOldOrNew := by
  intro s a watched rest hhost
  have hraced := step_of_host hhost
  have halone : step { s with host := .access a :: rest } = runAccess a (setHost rest s) := rfl
  rw [hraced, halone]
  refine ⟨fun u hu => ?_, fun r hr => ?_⟩
  · refine ⟨recordRace (setHost rest s) u watched, by simp only [runEvent, hu], rfl, by simp [recordRace], ?_⟩
    intro n address hn
    rw [recordRace, List.getElem?_mapIdx, hn, Option.map_some]
    split
    · exact .inr rfl
    · exact .inl rfl
  · simp only [runEvent, hr]

/-- Settles O7: each undefined access is refused before any instruction is decoded. -/
theorem undefinedAccessIsRefused : Obligations.UndefinedAccessIsRefused := by
  intro s a rest hhost
  rw [step_of_host hhost]
  exact ⟨runAccess_burst _, runAccess_subWord _, runAccess_wide _, fun hb hs ho =>
    runAccess_misaligned _ hb hs (mt (offset_low_eq_zero a.offset).mp ho)⟩

/-- Settles O21: with no row there is nothing to draw. -/
theorem droppedLineWritesNothing : Obligations.DroppedLineWritesNothing := by
  intro s line hvalid hinert hnone
  have hrows : renderRows s line = [] := (renderRows_of_inert hinert line).trans hnone
  have hready : lineReady s line = true := (lineReady_iff s line).mpr ⟨hvalid, by rw [hrows]; rfl⟩
  have hexec : exec (.renderLine 0 line) s = .next (renderedState s line) := execRenderLine_ready hready
  rw [hexec, renderedState, hrows, drawRows_nil, readsStale_nil]
  simp [consumeScanline, recordScanlineFault, reportRows, setReport]

end Sys2Proof.Machine
end

section
/-! SUPPORT. The registers of the window by their offsets, and what a read and a write of each decode to
(10_state.md R22, 30_encoding.md R66, R67). -/

namespace Sys2Proof

/-- An aligned offset of the window, by the register that stands there (R22). -/
inductive RegisterOffset : BitVec 9 → Prop where
  | cmd : RegisterOffset 0x000
  | status : RegisterOffset 0x004
  | result : RegisterOffset 0x008
  | fbBase : RegisterOffset 0x00C
  | errCmd : RegisterOffset 0x010
  | slwLow (i : BitVec 5) : RegisterOffset (2#2 ++ i ++ 0#2)
  | slwHigh (i : BitVec 3) : RegisterOffset (12#4 ++ i ++ 0#2)
  | reserved {offset : BitVec 9} (h : reservedOffset offset = true) : RegisterOffset offset

theorem RegisterOffset.aligned {offset : BitVec 9} (h : RegisterOffset offset) : offset.extractLsb' 0 2 = 0 := by
  cases h with
  | slwLow i => exact extract_low (2#2 ++ i) 0#2
  | slwHigh i => exact extract_low (12#4 ++ i) 0#2
  | reserved h =>
    simp only [reservedOffset, Bool.and_eq_true, beq_iff_eq] at h
    exact (Machine.offset_low_eq_zero offset).mpr h.1
  | _ => rfl

/-- The multiples of 4 in the window are the registers' offsets and the reserved ones (R22). -/
theorem registerOffset_of_aligned {offset : BitVec 9} (h : offset.extractLsb' 0 2 = 0) : RegisterOffset offset := by
  have hoffset := append_extract (n := 7) (m := 2) offset
  rw [h] at hoffset
  have hcases : ∀ n : BitVec 7,
      n = 0 ∨ n = 1 ∨ n = 2 ∨ n = 3 ∨ n = 4 ∨ n = 2#2 ++ n.extractLsb' 0 5 ∨ n = 12#4 ++ n.extractLsb' 0 3 ∨
        reservedOffset (n ++ 0#2) = true := by decide
  generalize offset.extractLsb' 2 7 = n at hoffset
  obtain rfl : n ++ 0#2 = offset := hoffset
  rcases hcases n with rfl | rfl | rfl | rfl | rfl | hn | hn | hn
  · exact .cmd
  · exact .status
  · exact .result
  · exact .fbBase
  · exact .errCmd
  · rw [hn]
    exact .slwLow _
  · rw [hn]
    exact .slwHigh _
  · exact .reserved hn

/-! ### Reads and writes of an offset -/

theorem decode_readAccess {offset : BitVec 9} (h : RegisterOffset offset) :
    decode (readAccess offset) = .ok (decodeRead offset) :=
  decode_word rfl rfl h.aligned

theorem decode_writeAccess {offset : BitVec 9} (h : RegisterOffset offset) (v : Word) :
    decode (writeAccess offset v) = .ok (decodeWrite offset v) :=
  decode_word rfl rfl h.aligned

/-- A write to CMD decodes to the command of its word (R66). -/
theorem decode_writeCmd (w : Word) : decode (writeAccess 0x000 w) = .ok (decodeCommand w) :=
  decode_writeAccess .cmd w

theorem decodeWrite_slwLow (i : BitVec 5) (v : Word) : decodeWrite (2#2 ++ i ++ 0#2) v = .wrSlwLow i v := by
  have hrows : ∀ j : BitVec 5, rowWrCmd.hits (1#1 ++ (2#2 ++ j ++ 0#2)) = false ∧
      rowWrFbBase.hits (1#1 ++ (2#2 ++ j ++ 0#2)) = false ∧ rowWrSlwLow.hits (1#1 ++ (2#2 ++ j ++ 0#2)) = true := by
    decide
  have hindex : (2#2 ++ i ++ 0#2).extractLsb' 2 5 = i :=
    (extract_in_high (k := 0) (2#2 ++ i) 0#2).trans (extract_low 2#2 i)
  simp [decodeWrite, hrows, hindex]

theorem decodeWrite_slwHigh (i : BitVec 3) (v : Word) : decodeWrite (12#4 ++ i ++ 0#2) v = .wrSlwHigh i v := by
  have hrows : ∀ j : BitVec 3, rowWrCmd.hits (1#1 ++ (12#4 ++ j ++ 0#2)) = false ∧
      rowWrFbBase.hits (1#1 ++ (12#4 ++ j ++ 0#2)) = false ∧ rowWrSlwLow.hits (1#1 ++ (12#4 ++ j ++ 0#2)) = false ∧
      rowWrSlwHigh.hits (1#1 ++ (12#4 ++ j ++ 0#2)) = true := by
    decide
  have hindex : (12#4 ++ i ++ 0#2).extractLsb' 2 3 = i :=
    (extract_in_high (k := 0) (12#4 ++ i) 0#2).trans (extract_low 12#4 i)
  simp [decodeWrite, hrows, hindex]

theorem decodeRead_slwLow (i : BitVec 5) : decodeRead (2#2 ++ i ++ 0#2) = .rdWoLow i := by
  revert i
  decide

theorem decodeRead_slwHigh (i : BitVec 3) : decodeRead (12#4 ++ i ++ 0#2) = .rdWoHigh i := by
  revert i
  decide

/-- No row of the table has the key of a reserved offset (R67). -/
theorem hits_of_reserved : ∀ offset : BitVec 9, reservedOffset offset = true → ∀ direction : BitVec 1,
    ∀ r ∈ hostbusRows, r.hits (direction ++ offset) = false := by
  decide +kernel

theorem decodeRead_reserved {offset : BitVec 9} (h : reservedOffset offset = true) :
    decodeRead offset = .reserved .read offset := by
  have hrows := hits_of_reserved offset h 0#1
  simp only [hostbusRows, List.cons_append, List.nil_append, List.forall_mem_cons] at hrows
  simp [decodeRead, hrows]

theorem decodeWrite_reserved {offset : BitVec 9} (h : reservedOffset offset = true) (v : Word) :
    decodeWrite offset v = .reserved (.write v) offset := by
  have hrows := hits_of_reserved offset h 1#1
  simp only [hostbusRows, List.cons_append, List.nil_append, List.forall_mem_cons] at hrows
  simp [decodeWrite, hrows]

/-! ### The instruction a read or a write stands for -/

theorem decodeCommand_wellFormed (w : Word) : (decodeCommand w).wellFormed = true := by
  simp only [decodeCommand]
  split_ifs with h1 h2 h3 h4
  · rfl
  · rfl
  · rfl
  · rfl
  · rw [Instr.wellFormed, reservedOp_eq, beq_false_of_ne h1, beq_false_of_ne h2, beq_false_of_ne h3,
      beq_false_of_ne h4]
    rfl

theorem encode_decodeRead {offset : BitVec 9} (h : RegisterOffset offset) :
    (decodeRead offset).wellFormed = true ∧ encode (decodeRead offset) = readAccess offset := by
  cases h with
  | slwLow i => rw [decodeRead_slwLow]; exact ⟨rfl, rfl⟩
  | slwHigh i => rw [decodeRead_slwHigh]; exact ⟨rfl, rfl⟩
  | reserved h => rw [decodeRead_reserved h]; exact ⟨h, rfl⟩
  | _ => exact ⟨rfl, rfl⟩

theorem encode_decodeWrite {offset : BitVec 9} (h : RegisterOffset offset) (v : Word) :
    (decodeWrite offset v).wellFormed = true ∧ encode (decodeWrite offset v) = writeAccess offset v := by
  cases h with
  | cmd => exact ⟨decodeCommand_wellFormed v, encode_decodeCommand v⟩
  | slwLow i => rw [decodeWrite_slwLow]; exact ⟨rfl, rfl⟩
  | slwHigh i => rw [decodeWrite_slwHigh]; exact ⟨rfl, rfl⟩
  | reserved h => rw [decodeWrite_reserved h]; exact ⟨h, rfl⟩
  | _ => exact ⟨rfl, rfl⟩

end Sys2Proof
end

section
/-! SUPPORT. The commands by the OP of a word, and what each does with a reserved field or with a word that meets its
conditions (30_encoding.md R60, R66, 60_exceptions.md R142, R143). -/

namespace Sys2Proof.Machine

/-- A write of a word to CMD does what the command it decodes to does (R66). -/
theorem exec_decodeCommand (w : Word) (s : State) : exec (decodeCommand w) s = exec (.wrCmd w) s := by
  simp only [decodeCommand]
  split_ifs with h1 h2 h3 h4
  · simp [exec, execWrCmd, decodeCommand, h1]
  · simp [exec, execWrCmd, decodeCommand, h2]
  · simp [exec, execWrCmd, decodeCommand, h3]
  · simp [exec, execWrCmd, decodeCommand, h4]
  · rfl

theorem exec_wrCmd_reserved {w : Word} (h : reservedOp w = true) (s : State) :
    exec (.wrCmd w) s = .next (raiseError .rsvOpcode w s) := by
  simp only [exec, execWrCmd, decodeCommand_reserved h]

theorem execSetInterlace_of_reserved {rsv : BitVec 27} (h : rsv ≠ 0) (en : BitVec 1) (s : State) :
    execSetInterlace rsv en s = .next (raiseError .rsvField (setInterlaceWord rsv en) s) :=
  if_pos h

theorem execEndFrame_of_reserved {rsv : BitVec 28} (h : rsv ≠ 0) (s : State) :
    execEndFrame rsv s = .next (raiseError .rsvField (endFrameWord rsv) s) :=
  if_pos h

/-- The record of the first error is the same in both states (10_state.md R24, R27). -/
abbrev SameError (s t : State) : Prop := t.err = s.err ∧ t.errCause = s.errCause ∧ t.errCmd = s.errCmd

theorem renderedState_sameError (s : State) (line : BitVec 8) : SameError s (renderedState s line) := by
  simp [SameError, renderedState]

theorem modeSetState_sameError (s : State) (mode : Mode) : SameError s (modeSetState s mode) := by
  simp [SameError, modeSetState, clearScreen]

theorem frameEndState_sameError (s : State) : SameError s (frameEndState s) := by
  unfold frameEndState
  split <;> exact ⟨rfl, rfl, rfl⟩

/-- The command of a word that meets its conditions completes without an error (R100, R120, R121, R122). -/
theorem exec_of_commandReady {w : Word} {s : State} (h : commandReady w s = true) :
    ∃ t, exec (decodeCommand w) s = .next t ∧ SameError s t := by
  unfold commandReady at h
  split at h
  · next rsv line hc =>
    rw [Bool.and_eq_true, beq_iff_eq] at h
    obtain ⟨rfl, hline⟩ := h
    rw [hc]
    exact ⟨_, execRenderLine_ready hline, renderedState_sameError s line⟩
  · next rsv mode hc =>
    rw [Bool.and_eq_true, beq_iff_eq] at h
    obtain ⟨rfl, hframe⟩ := h
    rw [hc]
    exact ⟨_, execSetMode_ready hframe mode, modeSetState_sameError s mode⟩
  · next rsv en hc =>
    obtain rfl := eq_of_beq h
    rw [hc]
    exact ⟨_, rfl, rfl, rfl, rfl⟩
  · next rsv hc =>
    obtain rfl := eq_of_beq h
    rw [hc]
    exact ⟨_, execEndFrame_zero s, frameEndState_sameError s⟩
  · cases h

end Sys2Proof.Machine
end

section
/-! SUPPORT. The obligations that rest on 30_encoding.md. -/

namespace Sys2Proof.Machine

/-- Settles O1: the offset of the access gives the register, and OP the command of a word written to CMD. -/
theorem decodeOfEncodeIsInstr : Obligations.DecodeOfEncodeIsInstr := by
  intro i hwf
  cases i with
  | renderLine rsv line => rw [encode, decode_writeCmd, decodeCommand_renderLineWord]
  | setMode rsv mode => rw [encode, decode_writeCmd, decodeCommand_setModeWord]
  | setInterlace rsv en => rw [encode, decode_writeCmd, decodeCommand_setInterlaceWord]
  | endFrame rsv => rw [encode, decode_writeCmd, decodeCommand_endFrameWord]
  | wrCmd w => rw [encode, decode_writeCmd, decodeCommand_reserved hwf]
  | wrFbBase v => exact decode_writeAccess .fbBase v
  | wrRoStatus v => exact decode_writeAccess .status v
  | wrRoResult v => exact decode_writeAccess .result v
  | wrRoErrCmd v => exact decode_writeAccess .errCmd v
  | wrSlwLow i v => rw [encode, decode_writeAccess (.slwLow i), decodeWrite_slwLow]
  | wrSlwHigh i v => rw [encode, decode_writeAccess (.slwHigh i), decodeWrite_slwHigh]
  | rdWoLow i => rw [encode, decode_readAccess (.slwLow i), decodeRead_slwLow]
  | rdWoHigh i => rw [encode, decode_readAccess (.slwHigh i), decodeRead_slwHigh]
  | reserved op offset =>
    cases op with
    | read => exact (decode_readAccess (.reserved hwf)).trans (congrArg _ (decodeRead_reserved hwf))
    | write v => exact (decode_writeAccess (.reserved hwf) v).trans (congrArg _ (decodeWrite_reserved hwf v))
  | _ => rfl

/-- Settles O2: a decoded access reads or writes an aligned offset, and at each register encoding gives it back. -/
theorem encodeOfDecodeIsAccess : Obligations.EncodeOfDecodeIsAccess := by
  rintro ⟨op, offset, size, burst⟩ i h
  obtain ⟨rfl, rfl, haligned⟩ := decode_eq_ok h
  have hoffset := registerOffset_of_aligned haligned
  cases op with
  | read =>
    cases (decode_readAccess hoffset).symm.trans h
    exact encode_decodeRead hoffset
  | write v =>
    cases (decode_writeAccess hoffset v).symm.trans h
    exact encode_decodeWrite hoffset v

/-- Settles O8: the write runs the command its word decodes to, and the decoder looks at OP alone. -/
theorem cmdWriteDispatchesOnOp : Obligations.CmdWriteDispatchesOnOp := by
  intro w s
  rw [← exec_decodeCommand]
  refine ⟨fun hop => ?_, fun m hop hm => ?_, fun hop => ?_, fun hop => ?_, fun hop => ?_⟩
  · simp [decodeCommand, hop]
  · simp [decodeCommand, hop, hm, Mode.ofBits_toBits]
  · simp [decodeCommand, hop]
  · simp [decodeCommand, hop]
  · rw [exec_decodeCommand]
    exact exec_wrCmd_reserved (by simpa [reservedOp] using hop) s

/-- Settles O9: the write does what its command does, and the command meets its conditions. -/
theorem readyCommandWordCompletes : Obligations.ReadyCommandWordCompletes := by
  intro w s hready
  obtain ⟨t, hrun, hsame⟩ := exec_of_commandReady hready
  exact ⟨t, (exec_decodeCommand w s).symm.trans hrun, hrun, hsame⟩

/-- Settles O4: the words are literals, and the decoder is run on each. -/
theorem writtenOutWordsDecode : Obligations.WrittenOutWordsDecode := by
  unfold Obligations.WrittenOutWordsDecode
  decide

/-- Settles O10: each command looks at its reserved field first. -/
theorem reservedFieldRecordsCauseTwo : Obligations.ReservedFieldRecordsCauseTwo := by
  intro s
  refine ⟨fun rsv line hrsv => ?_, fun rsv m hrsv => ?_, fun rsv en hrsv => ?_, fun rsv hrsv => ?_⟩
  · refine (execRenderLine_of_reserved hrsv line s).trans ?_
    rw [consumeScanline, raiseError_freeCtr]
    rfl
  · exact execSetMode_of_reserved hrsv m s
  · exact execSetInterlace_of_reserved hrsv en s
  · exact execEndFrame_of_reserved hrsv s

end Sys2Proof.Machine
end

section
/-! SUPPORT. The bits of a row are whole words, and RENDER_LINE sees the gray levels of the scanline alone
(40_datapath.md R80, R87). -/

namespace Sys2Proof.Machine

/-! ### Rows -/

/-- The bits of a row are the bits of its words (R8). -/
theorem eight_mul_strideBytes (p : Params) : 8 * strideBytes p = rowWords p * wordBits p := by
  rw [wordBits_eq, strideBytes, Nat.mul_left_comm]

/-- A row ends where the next begins (R83). -/
theorem rowAddress_add_stride (s : State) (r : Nat) :
    rowAddress s r + BitVec.ofNat 32 (strideBytes s.params) = rowAddress s (r + 1) := by
  simp only [rowAddress, Nat.add_mul, Nat.one_mul, BitVec.ofNat_add, BitVec.add_assoc]

theorem rowCells_length (s : State) (bit : Nat → Bool) (r : Nat) :
    (rowCells s bit r).length = strideBytes s.params := by
  simp [rowCells]

/-! ### The SLW registers -/

/-- The state with other SLW registers. -/
def setSlw (pixels : Vector Word 40) (s : State) : State := { s with slw := pixels }

theorem raiseError_setSlw (pixels : Vector Word 40) (cause : Cause) (w : Word) (s : State) :
    raiseError cause w (setSlw pixels s) = setSlw pixels (raiseError cause w s) := by
  have herr : (setSlw pixels s).err = s.err := rfl
  simp only [raiseError, herr, apply_ite (setSlw pixels)]
  rfl

theorem drawRows_setSlw (pixels : Vector Word 40) (s : State) (bit : Nat → Nat → Bool) (rows : List Nat) :
    drawRows (setSlw pixels s) bit rows = setSlw pixels (drawRows s bit rows) := by
  simp only [drawRows, writeRows_congr (s := s) (t := setSlw pixels s) rfl rfl]
  rfl

/-- The gray level of a pixel byte is its value modulo 4 (R80). -/
theorem mask_eq_of_mod {p q : Byte} (h : p.toNat % 4 = q.toNat % 4) : mask p = mask q :=
  BitVec.eq_of_toNat_eq (by rw [mask_toNat, mask_toNat, h])

section
variable {s : State} {pixels : Vector Word 40} (h : ∀ x, mask (slByte (setSlw pixels s) x) = mask (slByte s x))
include h

theorem pixelBit_setSlw (srcmap : Nat → Option (Fin 160)) :
    pixelBit (setSlw pixels s) srcmap = pixelBit s srcmap := by
  funext r k
  simp only [pixelBit, h]
  rfl

theorem lineInput_setSlw (line : BitVec 8) : lineInput (setSlw pixels s) line = lineInput s line := by
  simp only [lineInput, grayLevels, h]
  rfl

theorem renderRows_setSlw (line : BitVec 8) : renderRows (setSlw pixels s) line = renderRows s line := by
  simp only [renderRows, interlacedRows, lineInput_setSlw h]
  rfl

theorem renderBit_setSlw (line : BitVec 8) : renderBit (setSlw pixels s) line = renderBit s line := by
  funext r k
  simp only [renderBit, lineInput_setSlw h, pixelBit_setSlw h]
  rfl

theorem renderedState_setSlw (line : BitVec 8) :
    renderedState (setSlw pixels s) line = setSlw pixels (renderedState s line) := by
  simp only [renderedState, renderRows_setSlw h, renderBit_setSlw h, drawRows_setSlw]
  rfl

/-- RENDER_LINE sees the gray levels of the SLW registers, and nothing else of them (R80). -/
theorem execRenderLine_setSlw (rsv : BitVec 20) (line : BitVec 8) :
    execRenderLine rsv line (setSlw pixels s) = mapNext (setSlw pixels) (execRenderLine rsv line s) := by
  refine execRenderLine_map (setSlw pixels) rsv line s rfl ?_ ?_ (renderedState_setSlw h line)
  · rw [renderRows_setSlw h]
    exact writeStop_congr (s := s) (t := setSlw pixels s) rfl rfl rfl _
  · intro cause w
    rw [raiseError_setSlw]
    rfl

end

end Sys2Proof.Machine
end

section
/-! SUPPORT. The obligations that rest on 40_datapath.md. -/

namespace Sys2Proof.Machine

/-- Settles O25: the scanline is seen through its gray levels alone, and the two have the same. -/
theorem renderUsesOnlyTheMaskedPixels : Obligations.RenderUsesOnlyTheMaskedPixels :=
  fun _ _ rsv line h => execRenderLine_setSlw (fun x => mask_eq_of_mod (h x)) rsv line

/-- Settles O40: a row is whole words, and each word flushed leaves the writer idle. -/
theorem rowEndsOnWordBoundary : Obligations.RowEndsOnWordBoundary := by
  intro s bit r
  rw [eight_mul_strideBytes, writeRow_eq, rowAddress_add_stride]
  exact ⟨Nat.mul_mod_left _ _, rfl, rfl, rfl, rowCells_length s bit r⟩

end Sys2Proof.Machine
end

section
/-! SUPPORT. The record of a stale read, the bytes a RENDER_LINE writes, the pixels of a scanline of one gray level, and
the rows of the modes in closed form (41_render.md R100 to R113, 70_reset_and_hazards.md R164). -/

namespace Sys2Proof.Machine

/-! ### The record of a stale read -/

/-- No instruction clears the record (R164). -/
theorem Effect.scanlineFault_stays {s t : State} (h : Effect s t) (hfault : s.scanlineFault = true) :
    t.scanlineFault = true := by
  cases h <;> simp [renderedState, modeSetState, clearScreen, hfault]

/-- No event of the host clears the record, the reset input included (R164). -/
theorem runEvent_scanlineFault_stays {e : HostEvent} {s t : State} (h : runEvent e s = .next t)
    (hfault : s.scanlineFault = true) : t.scanlineFault = true := by
  rcases runEvent_eq_next h with he | ⟨u, watched, he, rfl⟩ | ⟨address, b, -, rfl⟩ | ⟨address, -, rfl⟩ | ⟨-, rfl⟩
  · exact he.scanlineFault_stays hfault
  · exact (recordRace_scanlineFault s u watched).trans (he.scanlineFault_stays hfault)
  · exact (hostStore_scanlineFault address b s).trans hfault
  · exact (hostLoad_scanlineFault address s).trans hfault
  · exact (blockReset_scanlineFault s).trans hfault

/-- A row drawn from a scanline that is not loaded leaves the record (R164). -/
theorem renderedState_scanlineFault_of_stale {s : State} {line : BitVec 8} (hrows : renderRows s line ≠ [])
    (hstale : scanlineLoaded s = false) : (renderedState s line).scanlineFault = true := by
  rw [renderedState_scanlineFault, hstale, decide_eq_true (mt (renderedState_rowCount_eq_zero s line).mp hrows)]
  exact Bool.or_true _

/-! ### Rendering a line again -/

/-- The bytes a RENDER_LINE of the line writes (R86, R100). -/
def lineCells (s : State) (line : BitVec 8) : List Host.Cell :=
  (renderRows s line).flatMap fun r => rowCells s (renderBit s line r) r

theorem renderedState_mem (s : State) (line : BitVec 8) :
    (renderedState s line).mem = s.mem.store (lineCells s line) :=
  congrArg s.mem.store (writeRows_cells s (renderBit s line) (renderRows s line) s.writer)

theorem lineCells_wf {s : State} {line : BitVec 8} (hstop : writeStop s (renderRows s line) = none) :
    Memory.wf (lineCells s line) := by
  rw [lineCells, ← writeRows_cells s (renderBit s line) (renderRows s line) s.writer]
  exact (writeRows_cells_inside (renderRows_drawable s line) hstop (renderBit s line) s.writer).1

/-- Storing the same bytes a second time changes no byte. -/
theorem Memory.read_store_store {m cells : Memory} (hm : Rising m) (hc : Rising cells) (a : Nat) :
    ((m.store cells).store cells).read a = (m.store cells).read a := by
  rw [Memory.read_store (Memory.store_rising hm hc) hc, Memory.read_store hm hc, ← Option.or_assoc, Option.or_self]

/-- The state `s` with what a RENDER_LINE leaves beside the consumed scanline, as it stands in `u`: the report, memory,
the record of a stale read and the writer (R100, R110). -/
def withDrawingOf (u s : State) : State :=
  { s with
    firstRow := u.firstRow, rowCount := u.rowCount, mem := u.mem, scanlineFault := u.scanlineFault, writer := u.writer }

/-- After a RENDER_LINE, the scanline again is the state before it, but for what the RENDER_LINE left (R112). -/
theorem renderedState_reload (s : State) (line : BitVec 8) :
    { renderedState s line with slwFresh := s.slwFresh, freeCtr := s.freeCtr } =
      withDrawingOf (renderedState s line) s := by
  simp [renderedState, withDrawingOf]

section
variable (u s : State) (line : BitVec 8)

theorem renderRows_withDrawingOf : renderRows (withDrawingOf u s) line = renderRows s line := rfl

theorem renderBit_withDrawingOf : renderBit (withDrawingOf u s) line = renderBit s line := rfl

theorem lineCells_withDrawingOf : lineCells (withDrawingOf u s) line = lineCells s line := by
  rw [lineCells, renderRows_withDrawingOf, renderBit_withDrawingOf]
  rfl

theorem writeStop_withDrawingOf (rows : List Nat) : writeStop (withDrawingOf u s) rows = writeStop s rows :=
  writeStop_congr (s := s) (t := withDrawingOf u s) rfl rfl rfl rows

/-- Whether a line is ready does not depend on what an earlier RENDER_LINE left (R100). -/
theorem lineReady_withDrawingOf (h : lineReady s line = true) : lineReady (withDrawingOf u s) line = true := by
  obtain ⟨hvalid, hstop⟩ := (lineReady_iff s line).mp h
  refine (lineReady_iff _ line).mpr ⟨hvalid, ?_⟩
  rwa [renderRows_withDrawingOf, writeStop_withDrawingOf]

end

/-! ### A scanline of one gray level -/

/-- The image span lies in the columns that show pixels (00_scope.md R12). -/
theorem imageSpan_le_destWidth (m : Mode) : horizontalMargin m + imageWidth m ≤ destWidth := by
  cases m <;> decide

/-- A scanline of one gray level shows its pattern in the image span, and FILL_BIT elsewhere (R113). -/
theorem pixelBit_of_uniform {s : State} {c : BitVec 2} (h : ∀ x, mask (slByte s x) = c) (m : Mode) (r k : Nat) :
    pixelBit s (colMap m) r k =
      if horizontalMargin m ≤ k ∧ k < horizontalMargin m + imageWidth m then lutBit s.params c (r % 4) (k % 4)
      else s.params.fillBit := by
  have hwidth := imageSpan_le_destWidth m
  by_cases hspan : horizontalMargin m ≤ k ∧ k < horizontalMargin m + imageWidth m
  · obtain ⟨x, hx⟩ := Option.isSome_iff_exists.mp ((colMap_isSome m k).mpr hspan)
    have hk : k < destWidth := by omega
    simp only [pixelBit, if_pos hk, hx, h x, if_pos hspan]
    rfl
  · have hnone : colMap m k = none := Option.not_isSome_iff_eq_none.mp (mt (colMap_isSome m k).mp hspan)
    simp only [pixelBit, hnone, ite_self, if_neg hspan]

/-! ### Rows -/

/-- A candidate that is not dropped is given back by its row, so the Fitted rows of two candidates differ (R103). -/
theorem fittedCandidate_eq {d r : Nat} (hd : d % 6 ≠ 5) (hr : r = d - d / 6) : d = r + r / 5 := by
  omega

/-- Two lines of one mode that share a row are one line (R114, R116). -/
theorem rowMap_injective {m : Mode} {l l' r : Nat} (h : r ∈ rowMap m l) (h' : r ∈ rowMap m l') : l = l' := by
  cases m with
  | natural =>
    obtain ⟨hr, -⟩ := (mem_naturalRows l r).mp h
    obtain ⟨hr', -⟩ := (mem_naturalRows l' r).mp h'
    omega
  | fitted =>
    obtain ⟨d, hl, hkept, hr, -⟩ := (mem_fittedRows l r).mp h
    obtain ⟨d', hl', hkept', hr', -⟩ := (mem_fittedRows l' r).mp h'
    have hd := fittedCandidate_eq hkept hr
    have hd' := fittedCandidate_eq hkept' hr'
    omega
  | doubled =>
    obtain ⟨hband, hr⟩ := (mem_doubledRows l r).mp h
    obtain ⟨hband', hr'⟩ := (mem_doubledRows l' r).mp h'
    omega
  | sliced =>
    obtain ⟨hr, -⟩ := (mem_slicedRows l r).mp h
    obtain ⟨hr', -⟩ := (mem_slicedRows l' r).mp h'
    omega

/-- Row r is written by the line of the candidate `r + r div 5` (R103, R114). -/
theorem mem_fittedRows_of_row {r : Nat} (hr : r < 240) : r ∈ fittedRows ((r + r / 5) / 2) :=
  (mem_fittedRows _ r).mpr ⟨r + r / 5, by omega, by omega, by omega, hr⟩

/-- Row r is written by line `12 + r div 2` (R105, R116). -/
theorem mem_doubledRows_of_row {r : Nat} (hr : r < 240) : r ∈ doubledRows (12 + r / 2) :=
  (mem_doubledRows _ r).mpr (by omega)

/-- A list of one row, dropped at a bound. -/
theorem filter_singleton_lt (r n : Nat) : [r].filter (· < n) = if r < n then [r] else [] := by
  rw [List.filter_singleton]
  simp only [Bool.cond_eq_ite, decide_eq_true_eq]

end Sys2Proof.Machine
end

section
/-! SUPPORT. The obligations that rest on 41_render.md. -/

namespace Sys2Proof.Machine

/-- Settles O19: a drawn stale row sets the record, no other instruction changes it, and no event clears it. -/
theorem staleScanlineFaults : Obligations.StaleScanlineFaults := by
  refine ⟨fun s line hready hinert hrows hstale => ?_, fun i s t h hchange => ?_, fun s t hstep hfault => ?_⟩
  · rw [← renderRows_of_inert hinert] at hrows
    exact ⟨renderedState s line, execRenderLine_ready (lineReady_of_ready hready line),
      renderedState_scanlineFault_of_stale hrows hstale⟩
  · exact (exec_scanlineFault h).resolve_left hchange
  · rcases step_eq_next hstep with ⟨-, rfl⟩ | ⟨e, rest, -, hrun⟩
    · exact hfault
    · exact runEvent_scanlineFault_stays hrun hfault

/-- Settles O23: RENDER_LINE draws the pixels of the column map, and each of them shows the one level. -/
theorem uniformScanlineShowsOnePattern : Obligations.UniformScanlineShowsOnePattern := by
  intro s line c hm hready hinert huniform
  obtain ⟨t, hrun, -, hpixels, -⟩ := renderLineDrawsItsRows s line hm hready hinert
  exact ⟨t, hrun, fun r hr k hk =>
    (hpixels r hr k hk).trans (congrArg some (pixelBit_of_uniform huniform s.mode r k))⟩

/-- Settles O24: with the scanline again, the line's bytes are those memory already holds. A RENDER_LINE that finds no
framebuffer writes none, either time. -/
theorem renderingAgainWritesTheSame : Obligations.RenderingAgainWritesTheSame := by
  intro s t line hm h
  rcases execRenderLine_eq_next h with ⟨hrsv, -⟩ | ⟨-, hunset, rfl⟩ | ⟨-, hvalid, hstop, rfl⟩
  · exact absurd rfl hrsv
  · refine ⟨_, execRenderLine_of_unset line ((raiseError_fbValid _ _ s).trans hunset), fun a => ?_⟩
    rw [consumeScanline_mem, raiseError_mem]
  · have hready := (lineReady_iff s line).mpr ⟨hvalid, hstop⟩
    rw [renderedState_reload]
    refine ⟨renderedState (withDrawingOf (renderedState s line) s) line,
      execRenderLine_ready (lineReady_withDrawingOf _ s line hready), fun a => ?_⟩
    have hkeeps : (withDrawingOf (renderedState s line) s).mem = (renderedState s line).mem := rfl
    rw [renderedState_mem, lineCells_withDrawingOf, hkeeps, renderedState_mem]
    exact Memory.read_store_store hm.1 (lineCells_wf hstop).1 a

/-- Settles O31, from the members of the row map and its closed form. -/
theorem fittedRowMap : Obligations.FittedRowMap := by
  refine ⟨mem_fittedRows, fun l hl hmod => ?_, fun l hl hmod => ?_, fun l hl => ?_⟩
  · exact ⟨_, (fittedRows_eq l).trans (by rw [if_neg (Nat.not_le.mpr hl), if_neg hmod])⟩
  · exact ⟨_, (fittedRows_eq l).trans (by rw [if_neg (Nat.not_le.mpr hl), if_pos hmod])⟩
  · exact (fittedRows_eq l).trans (if_pos hl)

/-- Settles O36: image bit j shows pixel `(2j + 1) div 3`, which is x just where j lies in the run of x. -/
theorem slicedRunsCoverTheImage : Obligations.SlicedRunsCoverTheImage := by
  intro j x hj
  obtain ⟨-, -, -, hsliced⟩ := columnMaps
  rw [hsliced, Nat.shiftRight_eq_div_pow, Nat.shiftRight_eq_div_pow]
  omega

/-- Settles O37: each row gives back its line, and in Fitted and Doubled each row has one. -/
theorem eachRowIsWrittenByOneLine : Obligations.EachRowIsWrittenByOneLine :=
  ⟨fun _ _ _ _ => rowMap_injective,
    fun _ hr => ⟨_, by omega, mem_fittedRows_of_row hr⟩,
    fun _ hr => ⟨_, by omega, by omega, mem_doubledRows_of_row hr⟩⟩

/-- Settles O11: both commands look for FB_VALID before anything else of the framebuffer. -/
theorem noFramebufferRecordsCauseThree : Obligations.NoFramebufferRecordsCauseThree := by
  intro s hunset
  refine ⟨fun line => ?_, fun m => execSetMode_of_unset m hunset⟩
  refine (execRenderLine_of_unset line hunset).trans ?_
  rw [consumeScanline, raiseError_freeCtr]
  rfl

/-- Settles O30: the one row is dropped at 240. -/
theorem naturalRowMap : Obligations.NaturalRowMap :=
  fun l => filter_singleton_lt (48 + l) 240

/-- Settles O32: this is the row map's own rule. -/
theorem doubledRowMap : Obligations.DoubledRowMap :=
  fun _ => rfl

/-- Settles O33: the one row is dropped at 240, and `(3l) div 2` leaves no remainder 2 modulo 3. -/
theorem slicedRowMap : Obligations.SlicedRowMap := by
  refine ⟨fun l => ?_, fun l m hmem => ?_⟩
  · rw [Nat.shiftRight_eq_div_pow]
    exact filter_singleton_lt (12 + 3 * l / 2) 240
  · obtain ⟨hrow, -⟩ := (mem_slicedRows l _).mp hmem
    omega

/-- Settles O35: pixel x is shown in the first column of its run. -/
theorem everyPixelIsShown : Obligations.EveryPixelIsShown := by
  intro m x
  obtain ⟨hnatural, hfitted, hdoubled, hsliced⟩ := columnMaps
  have hx := x.isLt
  have hpair : colMap .fitted (40 + 2 * x.val) = some x :=
    (hfitted _ x).mpr (by rw [Nat.shiftRight_eq_div_pow]; omega)
  cases m with
  | natural => exact ⟨120 + x.val, by omega, (hnatural _ x).mpr (by omega)⟩
  | fitted => exact ⟨40 + 2 * x.val, by omega, hpair⟩
  | doubled => exact ⟨40 + 2 * x.val, by omega, (hdoubled _).trans hpair⟩
  | sliced => exact ⟨80 + 3 * x.val / 2, by omega, (hsliced _ x).mpr (by omega)⟩

end Sys2Proof.Machine
end

section
/-! SUPPORT. What the registers' accesses and END_FRAME leave behind: the pixels of a written SLW register, the words
of STATUS and RESULT field by field, and the mark of a mode switch (10_state.md R24, R25, R28, 42_control.md R120, R122,
R124). -/

namespace Sys2Proof

/-- A bit of the high part of a concatenation. -/
theorem getLsbD_in_high {n m : Nat} (x : BitVec n) (y : BitVec m) (k : Nat) :
    (x ++ y).getLsbD (m + k) = x.getLsbD k := by
  simp [BitVec.getLsbD_append]

/-- A bit put below a value. -/
theorem getLsbD_flag {n : Nat} (x : BitVec n) (b : Bool) : (x ++ BitVec.ofBool b).getLsbD 0 = b := by
  rw [BitVec.getLsbD_append]
  simp

/-! ### The offsets of the scanline's registers -/

theorem offset_slwLow : ∀ i : BitVec 5, (2#2 ++ i ++ 0#2).toNat = 0x100 + 4 * i.toNat := by decide

theorem offset_slwHigh : ∀ i : BitVec 3, (12#4 ++ i ++ 0#2).toNat = 0x100 + 4 * (32 + i.toNat) := by decide

end Sys2Proof

namespace Sys2Proof.Machine

/-! ### A write to SLW[i] -/

section
variable (i : Fin 40) (v : Word) (s : State)

/-- The written register holds the value, and every other register what it held (R124). -/
theorem slWord_writeSlw (j : Fin 40) : slWord (writeSlw i v s) j = if j = i then v else slWord s j := by
  by_cases h : j = i
  · simp [slWord, h]
  · have hne : i.val ≠ j.val := fun hval => h (Fin.ext hval.symm)
    simp [slWord, h, Vector.getElem_set_ne _ _ hne]

/-- The register's four pixels become the bytes of the value, least significant first (R28, R124). -/
theorem slByte_writeSlw (x : Fin 160) : slByte (writeSlw i v s) x =
    if x.val / 4 = i.val then v.extractLsb' (8 * (x.val % 4)) 8 else slByte s x := by
  simp only [slByte, slWord_writeSlw, Fin.ext_iff]
  split <;> rfl

/-- The register counts as written, and every other register as it did (R124). -/
theorem slwFresh_writeSlw (j : Fin 40) :
    (writeSlw i v s).slwFresh[j] = (decide (j.val = i.val) || s.slwFresh[j]) := by
  by_cases h : j.val = i.val
  · simp [h]
  · simp [h, Vector.getElem_set_ne _ _ (Ne.symm h)]

end

/-! ### The words of STATUS and RESULT -/

section
variable (s : State)

theorem statusWord_mode : (statusWord s).extractLsb' 0 2 = s.mode.toBits := extract_low _ _

theorem statusWord_interlace : (statusWord s).getLsbD 2 = s.interlace :=
  (getLsbD_in_high _ _ 0).trans (getLsbD_flag _ _)

theorem statusWord_fullRedrawPending : (statusWord s).getLsbD 3 = s.fullRedrawPending :=
  (getLsbD_in_high _ _ 1).trans ((getLsbD_in_high _ _ 0).trans (getLsbD_flag _ _))

theorem statusWord_fbValid : (statusWord s).getLsbD 4 = s.fbValid :=
  (getLsbD_in_high _ _ 2).trans ((getLsbD_in_high _ _ 1).trans ((getLsbD_in_high _ _ 0).trans (getLsbD_flag _ _)))

/-- A bit of STATUS above the mode and the three flags (R24). -/
theorem statusWord_getLsbD_aboveFlags (k : Nat) : (statusWord s).getLsbD (5 + k) =
    (0#20 ++ causeCode s.errCause ++ BitVec.ofBool s.err ++ 0#3).getLsbD k := by
  have h : 5 + k = 2 + (1 + (1 + (1 + k))) := by omega
  rw [h, statusWord, getLsbD_in_high, getLsbD_in_high, getLsbD_in_high, getLsbD_in_high]

/-- The fields of STATUS above the mode and the three flags (R24). -/
theorem statusWord_extract_aboveFlags (k len : Nat) : (statusWord s).extractLsb' (5 + k) len =
    (0#20 ++ causeCode s.errCause ++ BitVec.ofBool s.err ++ 0#3).extractLsb' k len := by
  refine BitVec.eq_of_getLsbD_eq fun i hi => ?_
  rw [BitVec.getLsbD_extractLsb', BitVec.getLsbD_extractLsb', Nat.add_assoc, statusWord_getLsbD_aboveFlags]

theorem statusWord_err : (statusWord s).getLsbD 8 = s.err :=
  (statusWord_getLsbD_aboveFlags s 3).trans ((getLsbD_in_high _ _ 0).trans (getLsbD_flag _ _))

theorem statusWord_reservedLow : (statusWord s).extractLsb' 5 3 = 0 :=
  (statusWord_extract_aboveFlags s 0 3).trans (extract_low _ _)

theorem statusWord_errCause : (statusWord s).extractLsb' 9 3 = causeCode s.errCause := by
  rw [statusWord_extract_aboveFlags s 4 3, extract_in_high (k := 1), extract_in_high (k := 0), extract_low]

theorem statusWord_reservedHigh : (statusWord s).extractLsb' 12 20 = 0 := by
  rw [statusWord_extract_aboveFlags s 7 20, extract_in_high (k := 4), extract_in_high (k := 3), extract_high]
  rfl

theorem resultWord_firstRow : (resultWord s).extractLsb' 0 8 = s.firstRow := extract_low _ _

theorem resultWord_rowCount : (resultWord s).extractLsb' 8 8 = s.rowCount :=
  (extract_in_high (k := 0) _ _).trans (extract_low _ _)

theorem resultWord_reserved : (resultWord s).extractLsb' 16 16 = 0 :=
  (extract_in_high (k := 8) _ _).trans (extract_high _ _)

end

/-! ### The mark of a mode switch -/

/-- The mark outlives every effect but that of END_FRAME, which reports every row (R122). -/
theorem Effect.redraw_kept_or_reported {s t : State} (h : Effect s t) (hmark : s.fullRedrawPending = true) :
    t.fullRedrawPending = true ∨ (t.fullRedrawPending = false ∧ t.firstRow = 0 ∧ t.rowCount = 240) := by
  cases h with
  | fullRedraw hp => exact .inr ⟨rfl, rfl, rfl⟩
  | modeSet mode hv hw => exact .inl rfl
  | error cause w hc => exact .inl ((raiseError_fullRedrawPending cause w s).trans hmark)
  | renderError cause w hc => exact .inl ((raiseError_fullRedrawPending cause w s).trans hmark)
  | _ => exact .inl hmark

/-- Only an END_FRAME with reserved field 0 clears the mark (R24). -/
theorem commandOf_of_redraw_cleared {i : Instr} {s t : State} (h : exec i s = .next t)
    (hmark : s.fullRedrawPending = true) (hclear : t.fullRedrawPending = false) : commandOf i = .endFrame 0 := by
  have hchange : t.fullRedrawPending ≠ s.fullRedrawPending := by simp [hmark, hclear]
  rcases (ChangesAsNamed.of_exec h).redraw hchange with ⟨hset, -⟩ | ⟨-, hend⟩
  · simp [hclear] at hset
  · exact hend

/-- END_FRAME reports every row or none by the mark, and leaves the mark clear (R122). -/
theorem frameEndState_eq (s : State) :
    frameEndState s = { s with
      firstRow := 0
      rowCount := if s.fullRedrawPending = true then 240 else 0
      fullRedrawPending := false } := by
  unfold frameEndState
  split
  · rfl
  · next hmark =>
    have hclear : s.fullRedrawPending = false := by simpa using hmark
    rw [← hclear]
    rfl

end Sys2Proof.Machine
end

section
/-! SUPPORT. The obligations that rest on 42_control.md. -/

namespace Sys2Proof.Machine

/-- Settles O15: SET_MODE sets the mark; of all effects only END_FRAME's clears it, and that one reports every row. -/
theorem modeSwitchForcesFullRedraw : Obligations.ModeSwitchForcesFullRedraw := by
  refine ⟨fun s m hready => ⟨modeSetState s m, execSetMode_ready hready m, rfl⟩, fun i s t h hmark => ?_⟩
  rcases (exec_effect h).redraw_kept_or_reported hmark with hkept | ⟨hclear, hreport⟩
  · exact .inl hkept
  · exact .inr ⟨commandOf_of_redraw_cleared h hmark hclear, hreport⟩

/-- Settles O42: both rows of the table write one register, at its own index. -/
theorem writeSlwSetsFourPixels : Obligations.WriteSlwSetsFourPixels :=
  ⟨fun i v s => ⟨offset_slwLow i, _, rfl, rfl, slByte_writeSlw _ v s, slwFresh_writeSlw _ v s⟩,
    fun i v s => ⟨offset_slwHigh i, _, rfl, rfl, slByte_writeSlw _ v s, slwFresh_writeSlw _ v s⟩⟩

/-- Settles O13: EN is one bit, so the flag it stands for is whether it is 1. -/
theorem setInterlaceStoresFlag : Obligations.SetInterlaceStoresFlag := by
  intro en s
  have hflag : (en == 1) = decide (en.toNat = 1) := by
    revert en
    decide
  rw [← hflag]
  rfl

/-- Settles O14, from the state an END_FRAME leaves. -/
theorem endFrameReportsAndConsumesMark : Obligations.EndFrameReportsAndConsumesMark :=
  fun s => (execEndFrame_zero s).trans (congrArg Host.Outcome.next (frameEndState_eq s))

/-- Settles O44: the word of STATUS, field by field. -/
theorem readStatusReturnsLayout : Obligations.ReadStatusReturnsLayout := fun s =>
  ⟨returnWord (statusWord s) s, rfl, rfl, statusWord_mode s, statusWord_interlace s, statusWord_fullRedrawPending s,
    statusWord_fbValid s, statusWord_reservedLow s, statusWord_err s, statusWord_errCause s, statusWord_reservedHigh s⟩

/-- Settles O45: the word of RESULT, field by field. -/
theorem readResultReturnsLayout : Obligations.ReadResultReturnsLayout := fun s =>
  ⟨returnWord (resultWord s) s, rfl, rfl, resultWord_firstRow s, resultWord_rowCount s, resultWord_reserved s⟩

/-- Settles O46: the read returns the register's word, and `returnWord` changes only the word returned. -/
theorem readErrCmdReturnsIt : Obligations.ReadErrCmdReturnsIt := ⟨rfl, fun _ => rfl⟩

/-- Settles O47: each of these reads returns the word 0, and each of these writes answers the state it found. -/
theorem otherAccessesDoNothing : Obligations.OtherAccessesDoNothing :=
  fun _ => ⟨rfl, fun _ => rfl, fun _ => rfl, fun _ => rfl, fun _ => rfl, fun _ => rfl, fun _ => rfl, fun _ _ => rfl⟩

end Sys2Proof.Machine
end

section
/-! SUPPORT. When the recorded error stays as it is, and which rows the memory bus rejects (60_exceptions.md R143, R144,
R151). -/

namespace Sys2Proof.Machine

/-! ### The recorded error -/

theorem SameError.trans {s t u : State} (hst : SameError s t) (htu : SameError t u) : SameError s u := by
  obtain ⟨herr, hcause, hcmd⟩ := hst
  obtain ⟨herr', hcause', hcmd'⟩ := htu
  exact ⟨herr'.trans herr, hcause'.trans hcause, hcmd'.trans hcmd⟩

/-- An error after the first is not recorded (R143). -/
theorem raiseError_of_err {s : State} (herr : s.err = true) (cause : Cause) (w : Word) : raiseError cause w s = s :=
  if_pos herr

/-- No instruction changes the record of an error that is set (R143). -/
theorem Effect.sameError {s t : State} (h : Effect s t) (herr : s.err = true) : SameError s t := by
  cases h with
  | error cause w hc =>
    rw [raiseError_of_err herr]
    exact ⟨rfl, rfl, rfl⟩
  | renderError cause w hc =>
    rw [raiseError_of_err herr]
    exact ⟨rfl, rfl, rfl⟩
  | rendered line hv hw => exact renderedState_sameError s line
  | modeSet mode hv hw => exact modeSetState_sameError s mode
  | _ => exact ⟨rfl, rfl, rfl⟩

/-- Of the host's events only the reset input changes the record of an error that is set (R144). -/
theorem runEvent_sameError {e : HostEvent} {s t : State} (h : runEvent e s = .next t) (herr : s.err = true)
    (he : e ≠ .reset) : SameError s t := by
  rcases runEvent_eq_next h with heff | ⟨u, watched, heff, rfl⟩ | ⟨address, b, -, rfl⟩ | ⟨address, -, rfl⟩ | ⟨hreset, -⟩
  · exact heff.sameError herr
  · exact (heff.sameError herr).trans ⟨rfl, rfl, rfl⟩
  · exact ⟨rfl, rfl, rfl⟩
  · exact ⟨rfl, rfl, rfl⟩
  · exact absurd hreset he

/-! ### Rows the memory bus rejects -/

/-- A row is rejected where one of its bytes lies in a range the bus rejects (R151). -/
theorem rowRejected_of_byte {s : State} {r first length a : Nat} (hrange : (first, length) ∈ s.params.rejected)
    (hfirst : first ≤ a) (hend : a < first + length) (hrow : s.fbBase.toNat + r * strideBytes s.params ≤ a)
    (hrowEnd : a < s.fbBase.toNat + (r + 1) * strideBytes s.params) : rowRejected s r = true := by
  have hoverlap : 0 < length ∧ s.fbBase.toNat + r * strideBytes s.params < first + length ∧
      first < s.fbBase.toNat + r * strideBytes s.params + strideBytes s.params := by
    rw [Nat.add_one_mul] at hrowEnd
    omega
  exact List.any_eq_true.mpr ⟨(first, length), hrange, by simpa [and_assoc] using hoverlap⟩

/-- In a region that fits, rows of which the bus rejects one are refused for it (R151). -/
theorem writeStop_of_rejected {s : State} {rows : List Nat} {r : Nat} (hfits : regionFits s = true) (hr : r ∈ rows)
    (hrejected : rowRejected s r = true) : writeStop s rows = some .busRejectsWrite := by
  have hany : rows.any (rowRejected s) = true := List.any_eq_true.mpr ⟨r, hr, hrejected⟩
  simp [writeStop, List.ne_nil_of_mem hr, hfits, hany]

end Sys2Proof.Machine
end

section
/-! SUPPORT. The obligations that rest on 60_exceptions.md. -/

namespace Sys2Proof.Machine

/-- Settles O12: an idle step keeps the state, and each event but the reset input keeps the record. -/
theorem errorIsStickyUntilReset : Obligations.ErrorIsStickyUntilReset := by
  intro s t hstep herr hreset
  rcases step_eq_next hstep with ⟨-, rfl⟩ | ⟨e, rest, hhost, hrun⟩
  · exact ⟨herr, rfl, rfl⟩
  · have he : e ≠ .reset := by
      rintro rfl
      exact hreset rest hhost
    obtain ⟨herr', hcause, hcmd⟩ := runEvent_sameError hrun herr he
    exact ⟨herr'.trans herr, hcause, hcmd⟩

/-- Settles O29: the row with the rejected byte is one of the rows that the command would write. -/
theorem rejectedWriteIsRefused : Obligations.RejectedWriteIsRefused := by
  intro s r first length a hvalid hregion hr hrange hfirst hend hrow hrowEnd
  have hfits := (regionFits_iff s).mpr hregion
  have hrejected := rowRejected_of_byte hrange hfirst hend hrow hrowEnd
  refine ⟨fun m => ?_, fun line hinert hline => ?_⟩
  · exact execSetMode_eq_refused.mpr ⟨rfl, hvalid, writeStop_of_rejected hfits (List.mem_range.mpr hr) hrejected⟩
  · rw [← renderRows_of_inert hinert] at hline
    exact execRenderLine_eq_refused.mpr ⟨rfl, hvalid, writeStop_of_rejected hfits hline hrejected⟩

end Sys2Proof.Machine
end

section
/-! SUPPORT. The machine at reset: the invariant, and the values of the registers (70_reset_and_hazards.md R160). -/

namespace Sys2Proof.Machine

/-! ### The invariant -/

/-- The invariant holds right after reset, whatever the parameters are. -/
theorem Inv.resetWith (p : Params) : Inv (State.resetWith p) where
  memCanonical := ⟨.nil, List.forall_mem_nil _⟩
  writerIdle := ⟨rfl, rfl⟩
  fbBaseAligned := Nat.zero_mod _
  fbBaseUnset := fun _ => rfl
  errorAbsent := fun _ => ⟨rfl, rfl⟩
  errorCaused := nofun
  emptyReport := fun _ => rfl
  reportInside := Nat.zero_le _
  reportCount := .inl (Nat.zero_le _)

/-! ### The registers -/

/-- Every register of the block holds its reset value. The parameters, framebuffer memory and the model's own fields
are whatever they are: power-on and the reset input leave different ones. -/
def RegistersReset (t : State) : Prop :=
  t = { State.resetWith t.params with
    mem := t.mem, host := t.host, readData := t.readData, raceReads := t.raceReads
    scanlineFault := t.scanlineFault, freeCtr := t.freeCtr }

theorem registersReset_reset : RegistersReset State.reset := rfl

theorem registersReset_blockReset (s : State) : RegistersReset (blockReset s) := rfl

theorem statusWord_reset : statusWord State.reset = 0x00000008 := by decide

theorem resultWord_reset : resultWord State.reset = 0 := by decide

/-- The fields and words that R160 lists. -/
theorem RegistersReset.values {t : State} (h : RegistersReset t) :
    t.mode = .natural ∧ t.interlace = false ∧ t.fullRedrawPending = true ∧ t.fbValid = false ∧ t.err = false ∧
    t.errCause = .none ∧ statusWord t = 0x00000008 ∧ resultWord t = 0 ∧ t.fbBase = 0 ∧ t.errCmd = 0 ∧
    (∀ i : Fin 40, t.slwFresh[i] = false) ∧ t.writer = ⟨0, 0, 0⟩ := by
  rw [h]
  exact ⟨rfl, rfl, rfl, rfl, rfl, rfl, statusWord_reset, resultWord_reset, rfl, rfl,
    fun i => Vector.getElem_replicate i.isLt, rfl⟩

/-- The step that takes the reset input is the reset of the block, the input being off the list. -/
theorem step_of_reset {s : State} {rest : List HostEvent} (h : s.host = .reset :: rest) :
    step s = .next (blockReset (setHost rest s)) :=
  step_of_host h

end Sys2Proof.Machine
end

section
/-! SUPPORT. The obligations that rest on 70_reset_and_hazards.md. -/

namespace Sys2Proof.Machine

/-- Settles O53: nothing in the invariant at reset depends on the parameters. -/
theorem resetMeetsInvariant : Obligations.ResetMeetsInvariant := Inv.resetWith Config.params

/-- Settles O54: power-on and the reset input both leave every register at its reset value, and the reset input keeps
memory and the parameters, of which the table is one. -/
theorem resetLeavesStatedValues : Obligations.ResetLeavesStatedValues := by
  refine ⟨?_, fun s rest hhost => ⟨_, step_of_reset hhost, rfl, rfl⟩⟩
  rintro t (rfl | ⟨s, rest, hhost, hstep⟩)
  · exact registersReset_reset.values
  · cases (step_of_reset hhost).symm.trans hstep
    exact (registersReset_blockReset _).values

end Sys2Proof.Machine
end
